-- ==== Sys2Proof/Word.lean ====
section
/-! DEFINITION. The machine's words and elements (00_scope.md R7, R8; 10_state.md R20, R28, R29). -/

namespace Sys2Proof

/-- A register or a command word: `LEN_W` = `CMD_W` = 32 bits (R7). -/
abbrev Word := BitVec 32

/-- A byte of SEC or REC, or of the pixel codec's working copy (R6). -/
abbrev Byte := BitVec 8

/-- An element of CAR or OUT: the 16-bit pattern of R29; an 8-bit sample is one below `2^8` (log 9). -/
abbrev Sample := BitVec 16

/-- An element of TXT or DELIM: `CP_W` = 21 bits (R7, R30). -/
abbrev CodePoint := BitVec 21

/-- An element of BIT, and one header or payload bit. -/
abbrev Bit := BitVec 1

/-- Field `w` of `LSB.EMB` and `LSB.EXT` (30_encoding.md R86), under the names of R90:
`IMG` = 0 is 8-bit samples, `AUD` = 1 is 16-bit samples. -/
inductive SampleWidth where
  | img
  | aud
  deriving DecidableEq, Repr

end Sys2Proof
end

