-- ==== Sys2Proof/Syntax.lean ====
section
/-! DEFINITION. The eight commands of spec/opcode_table.json (30_encoding.md R87), one constructor a row. -/

namespace Sys2Proof

/-- A command. `ch` and `d` are the numbers of R86, used zero-extended and only compared and stored, so naturals;
`Instr.wf` bounds them by their fields' widths. -/
inductive Instr where
  /-- `CFG.DELIM` (42_lsb_carrier_codec.md R130). -/
  | cfgDelim
  /-- `CFG.PIX ch, d` (43_pixel_substitution_codec.md R160). -/
  | cfgPix (ch d : Nat)
  /-- `TXT.ENC` (41_text_bit_codec.md R110). -/
  | txtEnc
  /-- `TXT.DEC` (41_text_bit_codec.md R112). -/
  | txtDec
  /-- `LSB.EMB w` (42_lsb_carrier_codec.md R131). -/
  | lsbEmb (w : SampleWidth)
  /-- `LSB.EXT w` (42_lsb_carrier_codec.md R133). -/
  | lsbExt (w : SampleWidth)
  /-- `PIX.EMB` (43_pixel_substitution_codec.md R161). -/
  | pixEmb
  /-- `PIX.EXT` (43_pixel_substitution_codec.md R163). -/
  | pixExt
  deriving DecidableEq, Repr

/-- The mnemonic of R87 and R90. -/
def Instr.mnemonic : Instr → String
  | .cfgDelim => "CFG.DELIM"
  | .cfgPix _ _ => "CFG.PIX"
  | .txtEnc => "TXT.ENC"
  | .txtDec => "TXT.DEC"
  | .lsbEmb _ => "LSB.EMB"
  | .lsbExt _ => "LSB.EXT"
  | .pixEmb => "PIX.EMB"
  | .pixExt => "PIX.EXT"

/-- The operand list of R90's assembler syntax, in the order it is written. -/
def Instr.operands : Instr → List Nat
  | .cfgDelim => []
  | .cfgPix ch d => [ch, d]
  | .txtEnc => []
  | .txtDec => []
  | .lsbEmb .img => [0]
  | .lsbEmb .aud => [1]
  | .lsbExt .img => [0]
  | .lsbExt .aud => [1]
  | .pixEmb => []
  | .pixExt => []

end Sys2Proof
end

