-- ==== Sys2Proof/WellFormed.lean ====
section
/-! DEFINITION. Which terms of `Instr` are commands: every operand fits its field (30_encoding.md R86). -/

namespace Sys2Proof

/-- `ch` is 2 bits (0 to 3) and `d` is 8 bits (0 to 255). A well-formed `CFG.PIX` may still have an illegal operand
value: that fails in execution, not here (R88). -/
def Instr.wf : Instr → Bool
  | .cfgDelim => true
  | .cfgPix ch d => decide (ch < 4) && decide (d < 256)
  | .txtEnc => true
  | .txtDec => true
  | .lsbEmb _ => true
  | .lsbExt _ => true
  | .pixEmb => true
  | .pixExt => true

end Sys2Proof
end

