-- ==== Sys2Proof/Decode.lean ====
section
/-! DEFINITION. Command words: the opcode table, the decoder, and the encoder (30_encoding.md R85 to R89). -/

namespace Sys2Proof

/-- Why a word is no command: both are `IllegalCommand` (R88, 93_implementation_defined.md Part 2). -/
inductive DecodeError where
  /-- Bits 31:24 are none of the eight opcodes. -/
  | reservedOpcode (opc : BitVec 8)
  /-- A listed opcode with a nonzero bit in a field marked zero. -/
  | nonzeroReservedBits (w : Word)
  deriving DecidableEq, Repr

/-- Format Z: bits 23:0 are zero (R85). -/
def decodeZ (w : Word) (i : Instr) : Except DecodeError Instr :=
  if w.extractLsb' 0 24 = 0 then .ok i else .error (.nonzeroReservedBits w)

/-- The sample width that bit 0 of a format W word selects (R86). -/
def widthOfBit (b : Bit) : SampleWidth := if b = 0 then .img else .aud

/-- Format W: bits 23:1 are zero, bit 0 is `w` (R85). -/
def decodeW (w : Word) (f : SampleWidth → Instr) : Except DecodeError Instr :=
  if w.extractLsb' 1 23 = 0 then .ok (f (widthOfBit (w.extractLsb' 0 1))) else .error (.nonzeroReservedBits w)

/-- Format P: bits 23:16 and 7:2 are zero, bits 15:8 are `d`, bits 1:0 are `ch` (R85). -/
def decodeP (w : Word) (f : Nat → Nat → Instr) : Except DecodeError Instr :=
  if w.extractLsb' 16 8 = 0 ∧ w.extractLsb' 2 6 = 0 then
    .ok (f (w.extractLsb' 0 2).toNat (w.extractLsb' 8 8).toNat)
  else .error (.nonzeroReservedBits w)

/-- The command a word written to `CMD` is, by its opcode in bits 31:24 (R87); total, and every other word is
rejected by name (R88). -/
def decode (w : Word) : Except DecodeError Instr :=
  let opc : BitVec 8 := w.extractLsb' 24 8
  if opc = 0x01 then decodeZ w .cfgDelim
  else if opc = 0x02 then decodeP w .cfgPix
  else if opc = 0x10 then decodeZ w .txtEnc
  else if opc = 0x11 then decodeZ w .txtDec
  else if opc = 0x20 then decodeW w .lsbEmb
  else if opc = 0x21 then decodeW w .lsbExt
  else if opc = 0x30 then decodeZ w .pixEmb
  else if opc = 0x31 then decodeZ w .pixExt
  else .error (.reservedOpcode opc)

/-- Bit 0 of a format W word for a sample width (R86). -/
def bitOfWidth : SampleWidth → Word
  | .img => 0
  | .aud => 1

/-- The command word of an instruction, from the encodings given with R110, R112, R130, R131, R133, R160, R161 and
R163. -/
def encode : Instr → Word
  | .cfgDelim => 0x01000000
  | .cfgPix ch d => 0x02000000 ||| (BitVec.ofNat 32 d <<< 8) ||| BitVec.ofNat 32 ch
  | .txtEnc => 0x10000000
  | .txtDec => 0x11000000
  | .lsbEmb w => 0x20000000 ||| bitOfWidth w
  | .lsbExt w => 0x21000000 ||| bitOfWidth w
  | .pixEmb => 0x30000000
  | .pixExt => 0x31000000

/-- A row of R87's opcode map: a word `c` selects the row when `c & mask = pattern`. -/
structure OpcodeRow where
  mnemonic : String
  pattern : Word
  mask : Word
  deriving DecidableEq, Repr

/-- A word selects a row (R87). -/
def OpcodeRow.selectedBy (r : OpcodeRow) (c : Word) : Bool := decide (c &&& r.mask = r.pattern)

/-- R87's opcode map, transcribed. The decoder does not use it: that the two agree is a claim. -/
def opcodeTable : List OpcodeRow :=
  [ ⟨"CFG.DELIM", 0x01000000, 0xFFFFFFFF⟩,
    ⟨"CFG.PIX", 0x02000000, 0xFFFF00FC⟩,
    ⟨"TXT.ENC", 0x10000000, 0xFFFFFFFF⟩,
    ⟨"TXT.DEC", 0x11000000, 0xFFFFFFFF⟩,
    ⟨"LSB.EMB", 0x20000000, 0xFFFFFFFE⟩,
    ⟨"LSB.EXT", 0x21000000, 0xFFFFFFFE⟩,
    ⟨"PIX.EMB", 0x30000000, 0xFFFFFFFF⟩,
    ⟨"PIX.EXT", 0x31000000, 0xFFFFFFFF⟩ ]

/-- What the decoder reads from an instruction whose bits are `w`, its `nbits` low ones kept: a command is one 32-bit
word (R85), so any higher bits of a shorter row are zero. -/
def decodeTableWord (nbits w : Nat) : Option Instr :=
  match decode (BitVec.ofNat 32 (w % 2 ^ nbits)) with
  | .ok i => some i
  | .error _ => none

end Sys2Proof
end

