-- ==== Sys2Proof/Config.lean ====
section
/-! DEFINITION. The parameters the spec leaves to the implementation (00_scope.md R7). -/

namespace Sys2Proof

/-- The OPEN parameters of R7. They stand in `State.cfg`, so that a statement about every state is a statement for
every value of them; no step changes them (log 4). -/
structure Config where
  /-- `DELIM_MAX`: the elements of the delimiter register file. -/
  delimMax : Nat
  /-- `CAP_CAR`: the most elements of CAR and of OUT. -/
  capCar : Nat
  /-- `CAP_SEC`: the most elements of SEC and of REC. -/
  capSec : Nat
  /-- `CAP_TXT`: the most elements of TXT. -/
  capTxt : Nat
  /-- `CAP_BIT`: the most elements of BIT. -/
  capBit : Nat
  deriving DecidableEq, Repr

/-- R7's one bound on the parameters: `DELIM_MAX` is "OPEN, at least 5". -/
abbrev Config.wf (c : Config) : Prop := 5 ≤ c.delimMax

/-- The parameters of the machine that `State.reset` stands for. DESIGN CHOICE (log 4): the spec gives none. The
capacities admit every length the 32-bit registers can hold, so that no command is refused for size. -/
def Config.chosen : Config where
  delimMax := 64
  capCar := 3 * (2 ^ 32 - 1) * (2 ^ 32 - 1)
  capSec := 3 * (2 ^ 32 - 1) * (2 ^ 32 - 1)
  capTxt := 2 ^ 32 - 1
  capBit := 2 ^ 32 - 1

end Sys2Proof
end

