-- ==== Sys2Proof/Machine/State.lean ====
section
/-! DEFINITION. The machine's state (10_state.md), the reasons a step can stop, and the state after reset. -/

namespace Sys2Proof.Machine

/-- An element-addressed space (10_state.md R28): the elements that hold a value, as (index, value) pairs with
strictly rising indices. An index not listed holds no value (R33), so a listed value is never redundant. -/
structure Space (w : Nat) where
  cells : List (Nat × BitVec w)
  deriving DecidableEq, Repr

/-- The canonical form of a space: indices strictly rise. -/
abbrev Space.wf {w : Nat} (m : Space w) : Prop := m.cells.Pairwise (fun p q => p.1 < q.1)

/-- Every listed element lies within the space's capacity (00_scope.md R7). -/
abbrev Space.within {w : Nat} (m : Space w) (cap : Nat) : Prop := ∀ p ∈ m.cells, p.1 < cap

/-- A space no element of which holds a value: every space after reset (R33). -/
def Space.empty {w : Nat} : Space w := ⟨[]⟩

/-- The seven operand registers (10_state.md R20), by the spec's names in lower case. -/
inductive OperandReg where
  | n
  | h
  | w
  | sh
  | sw
  | tlen
  | blen
  deriving DecidableEq, Repr

/-- What the host can read as a register (70_reset_and_hazards.md R232); `CMD` is not among them (10_state.md R27). -/
inductive HostReg where
  | operand (r : OperandReg)
  | pixcfg
  | dlen
  | delim (j : Nat)
  | status
  | hdr0
  | hdr1
  deriving DecidableEq, Repr

/-- The six spaces (10_state.md R28); `recon` is REC. -/
inductive SpaceName where
  | car
  | out
  | sec
  | recon
  | txt
  | bit
  deriving DecidableEq, Repr

/-- What the host may do between commands (70_reset_and_hazards.md R232; the directives of 30_encoding.md R90). There
is no action for what R232 forbids. A load takes the first index it writes (`.load` has 0) (logs 1, 10, 11, 17). -/
inductive HostAction where
  /-- One write of a command word to `CMD` (10_state.md R27). -/
  | command (word : Word)
  /-- `.reg NAME, value`. -/
  | writeReg (r : OperandReg) (v : Word)
  | loadCar (first : Nat) (vals : List Sample)
  | loadOut (first : Nat) (vals : List Sample)
  | loadSec (first : Nat) (vals : List Byte)
  | loadRec (first : Nat) (vals : List Byte)
  | loadTxt (first : Nat) (vals : List CodePoint)
  | loadBit (first : Nat) (vals : List Bit)
  /-- `.copy OUT, CAR`. -/
  | copyOutToCar
  | readReg (r : HostReg)
  | readElem (sp : SpaceName) (i : Nat)
  /-- `.reset`. -/
  | reset
  deriving DecidableEq, Repr

/-- All the spec gives the machine. The engine keeps nothing else between commands (10_state.md R32). -/
structure State where
  /-- The parameters of this machine (00_scope.md R7; log 4). -/
  cfg : Config
  /-- `N` (R20). -/
  n : Word
  /-- `H` (R20). -/
  h : Word
  /-- `W` (R20). -/
  w : Word
  /-- `SH` (R20). -/
  sh : Word
  /-- `SW` (R20). -/
  sw : Word
  /-- `TLEN` (R20). -/
  tlen : Word
  /-- `BLEN` (R20). -/
  blen : Word
  /-- `PIXCFG` (R23). -/
  pixcfg : Word
  /-- `DELIM`, all `DELIM_MAX` elements of the register file (R24). -/
  delim : List CodePoint
  /-- `DLEN` (R24). -/
  dlen : Word
  /-- `STATUS` (R25). -/
  status : Word
  /-- `HDR0` (R26). -/
  hdr0 : Word
  /-- `HDR1` (R26). -/
  hdr1 : Word
  /-- CAR (R28). -/
  car : Space 16
  /-- OUT (R28). -/
  out : Space 16
  /-- SEC (R28). -/
  sec : Space 8
  /-- REC (R28). -/
  recon : Space 8
  /-- TXT (R28). -/
  txt : Space 21
  /-- BIT (R28). -/
  bit : Space 1
  /-- The host actions not yet performed, oldest first: the model's own field (log 1). -/
  host : List HostAction
  deriving DecidableEq, Repr

/-- Why the machine stops with a fault. No command faults (60_exceptions.md R193). -/
inductive Fault where
  /-- Raised by a host access to an element at or beyond its space's capacity, or to a delimiter register at or beyond
  `DELIM_MAX`: there is no such element (00_scope.md R7). Safe: the machine stops where the spec gives no meaning
  (log 10). -/
  | noSuchElement
  deriving DecidableEq, Repr

/-- Why there is no step: the spec's "refuse" of 93_implementation_defined.md Part 1. -/
inductive Refusal where
  /-- Raised by exec for a command that has no meaning yet (none is left). Safe. -/
  | notModelled (mnemonic : String)
  /-- U1: raised by `CFG.DELIM` and `TXT.ENC` on a text element that is not a Unicode scalar value. Safe. -/
  | nonScalarText
  /-- U2: raised by a command whose operand or result exceeds its space's capacity. Safe. -/
  | overCapacity
  /-- U3: raised by a command, or a host read, of an element that holds no value. Safe (log 5). -/
  | unwrittenElement
  /-- U8: raised by a carrier command whose CAR holds an element too wide for the sample width. Safe (log 7). -/
  | sampleTooWide
  deriving DecidableEq, Repr

/-- `"<END>"` (00_scope.md R6). -/
def defaultDelimiter : List CodePoint := [0x3C, 0x45, 0x4E, 0x44, 0x3E]

/-- The state after reset of a machine with parameters `c`: the table of 10_state.md R33. The operand registers, and
DELIM above the default delimiter, are unspecified there: DESIGN CHOICE 0 (logs 2, 3). -/
def State.resetWith (c : Config) : State where
  cfg := c
  n := 0
  h := 0
  w := 0
  sh := 0
  sw := 0
  tlen := 0
  blen := 0
  pixcfg := 0x10
  delim := defaultDelimiter ++ List.replicate (c.delimMax - 5) 0
  dlen := 5
  status := 0
  hdr0 := 0
  hdr1 := 0
  car := .empty
  out := .empty
  sec := .empty
  recon := .empty
  txt := .empty
  bit := .empty
  host := []

/-- The machine right after reset (10_state.md R33), with the parameters of `Config.chosen` (log 4). -/
def State.reset : State := State.resetWith Config.chosen

end Sys2Proof.Machine
end

