-- ==== Sys2Proof/Machine/Flags.lean ====
section
/-! DEFINITION. STATUS and PIXCFG: field layout and values (10_state.md R23, R25; 60_exceptions.md R190). -/

namespace Sys2Proof.Machine

/-- The outcomes of a command (60_exceptions.md R190). The block never writes `carrierLoadError` (R198). -/
inductive Kind where
  | success
  | capacityExceeded
  | invalidHeader
  | configurationError
  | carrierLoadError
  | illegalCommand
  deriving DecidableEq, Repr

/-- The code of a kind in `STATUS.KIND` (R190). -/
def kindCode : Kind → Word
  | .success => 0
  | .capacityExceeded => 1
  | .invalidHeader => 2
  | .configurationError => 3
  | .carrierLoadError => 4
  | .illegalCommand => 5

/-- `STATUS` with `KIND` in bits 2:0, `WARN` in bit 3, the rest zero (10_state.md R25). -/
def statusWord (k : Kind) (warn : Bool) : Word := kindCode k ||| (if warn then 8 else 0)

/-- `STATUS.KIND`, bits 2:0. -/
def State.kindField (s : State) : BitVec 3 := s.status.extractLsb' 0 3

/-- `STATUS.WARN`, bit 3. -/
def State.warn (s : State) : Bool := s.status.getLsbD 3

/-- `PIXCFG` with `CHANNEL` in bits 1:0, `BIT_DEPTH` in bits 4:2, the rest zero (10_state.md R23). -/
def pixcfgWord (ch d : Nat) : Word := (BitVec.ofNat 32 d <<< 2) ||| BitVec.ofNat 32 ch

/-- `PIXCFG.CHANNEL`, bits 1:0. -/
def State.channel (s : State) : Nat := (s.pixcfg.extractLsb' 0 2).toNat

/-- `PIXCFG.BIT_DEPTH`, bits 4:2. -/
def State.bitDepth (s : State) : Nat := (s.pixcfg.extractLsb' 2 3).toNat

end Sys2Proof.Machine
end

