-- ==== Sys2Proof/Machine/Ops.lean ====
section
/-! DEFINITION. The named operations over spaces, bits and text, and how a command ends. -/

namespace Sys2Proof.Machine

/-! ### Spaces (20_memory.md R50) -/

/-- The value listed at an index, if any. -/
def lookupCell {w : Nat} : List (Nat × BitVec w) → Nat → Option (BitVec w)
  | [], _ => none
  | c :: cs, i => if c.1 = i then some c.2 else lookupCell cs i

/-- Element `i`, or none where it holds no value (10_state.md R28). -/
def Space.get {w : Nat} (m : Space w) (i : Nat) : Option (BitVec w) := lookupCell m.cells i

/-- `MemRead(S.i, w)`. Where element `i` holds no value the reading command is refused before this is used
(`Space.written`), so the 0 here is never a result (log 5). -/
def Space.read {w : Nat} (m : Space w) (i : Nat) : BitVec w := (m.get i).getD 0

/-- The elements `[0, n)` as a sequence: `[MemRead(S.i, w) for i in [0, n)]`. -/
def Space.front {w : Nat} (m : Space w) (n : Nat) : List (BitVec w) := (List.range n).map m.read

/-- Every element of a list of indices holds a value (93_implementation_defined.md U3). -/
def Space.written {w : Nat} (m : Space w) (is : List Nat) : Bool := is.all fun i => (m.get i).isSome

/-- Values at consecutive indices, as cells. -/
def cellsFrom {w : Nat} : Nat → List (BitVec w) → List (Nat × BitVec w)
  | _, [] => []
  | i, v :: vs => (i, v) :: cellsFrom (i + 1) vs

/-- Writes a sequence to elements `first, first + 1, …`; every other element keeps its value (92 D37). A write of one
element, `MemWrite(S.i, w, v)`, is `store i [v]`. -/
def Space.store {w : Nat} (m : Space w) (first : Nat) (vals : List (BitVec w)) : Space w :=
  ⟨m.cells.filter (fun c => decide (c.1 < first)) ++ cellsFrom first vals
    ++ m.cells.filter (fun c => decide (first + vals.length ≤ c.1))⟩

/-- Writes every element that `src` holds over `m`; the host's `.copy OUT, CAR` (30_encoding.md R90; log 11). -/
def Space.overwriteWith {w : Nat} (m src : Space w) : Space w :=
  src.cells.foldl (fun acc c => acc.store c.1 [c.2]) m

/-! ### Bits (00_scope.md R10) -/

/-- `bits_msb(v, n)`: bit `n-1-i` of `v` at position `i`. -/
def bitsMsb (v n : Nat) : List Bit := (List.range n).map fun i => BitVec.ofNat 1 (v >>> (n - 1 - i))

/-- `val_msb(b)`: the sum of `b[i] * 2^(n-1-i)`. -/
def valMsb : List Bit → Nat
  | [] => 0
  | b :: bs => b.toNat * 2 ^ bs.length + valMsb bs

/-! ### Text (00_scope.md R11, R12; 41_text_bit_codec.md R112) -/

/-- A Unicode scalar value: `[0, 0xD7FF]` or `[0xE000, 0x10FFFF]` (R11, R30). -/
def isScalar (cp : CodePoint) : Bool :=
  decide (cp.toNat ≤ 0xD7FF) || (decide (0xE000 ≤ cp.toNat) && decide (cp.toNat ≤ 0x10FFFF))

/-- `utf8(cp)`, the table of R11 (log 12). Only used on scalar values: other elements are refused (U1). -/
def utf8 (cp : CodePoint) : List Byte :=
  if cp.toNat ≤ 0x7F then
    [cp.extractLsb' 0 8]
  else if cp.toNat ≤ 0x7FF then
    [0xC0 ||| (cp.extractLsb' 6 5).setWidth 8, 0x80 ||| (cp.extractLsb' 0 6).setWidth 8]
  else if cp.toNat ≤ 0xFFFF then
    [0xE0 ||| (cp.extractLsb' 12 4).setWidth 8, 0x80 ||| (cp.extractLsb' 6 6).setWidth 8,
      0x80 ||| (cp.extractLsb' 0 6).setWidth 8]
  else
    [0xF0 ||| (cp.extractLsb' 18 3).setWidth 8, 0x80 ||| (cp.extractLsb' 12 6).setWidth 8,
      0x80 ||| (cp.extractLsb' 6 6).setWidth 8, 0x80 ||| (cp.extractLsb' 0 6).setWidth 8]

/-- `utf8s(s)`: the bytes of a text in order (R11). -/
def utf8s (t : List CodePoint) : List Byte := t.flatMap utf8

/-- The text bitstream of R80: each byte's 8 bits, most significant first, in order. -/
def bytesToBits (bs : List Byte) : List Bit := bs.flatMap fun b => bitsMsb b.toNat 8

/-- `bits_to_text(b)` (R112): the value of each group of 8 bits, a shorter last group dropped. -/
def bitsToText (b : List Bit) : List CodePoint :=
  (List.range (b.length / 8)).map fun q => BitVec.ofNat 21 (valMsb ((b.drop (8 * q)).take 8))

/-- `find(hay, needle)` (R12): the least `p` in `[0, len(hay) - len(needle)]` where the needle stands, if any. -/
def find (hay needle : List CodePoint) : Option Nat :=
  (List.range (hay.length + 1 - needle.length)).find? fun p => decide ((hay.drop p).take needle.length = needle)

/-- `truncate(t)` for the delimiter `dl` (42_lsb_carrier_codec.md R134): the text before the delimiter's first
occurrence, or all of it with the warning. -/
def truncateAt (dl t : List CodePoint) : List CodePoint × Bool :=
  match find t dl with
  | some p => (t.take p, false)
  | none => (t, true)

/-! ### How a command ends -/

/-- The machine's outcome type. -/
abbrev Result := Host.Outcome State Fault Refusal

/-- `raise <Kind>` (60_exceptions.md R192), the one way a command fails: `STATUS` takes the kind with `WARN` 0, and
nothing else changes. Writes to `HDR0` and `HDR1` made before it are in `s` and stay. There is no mode, saved pc or
vector to touch, and no return: the next command simply runs (R197). -/
def raise (k : Kind) (s : State) : Result := .next { s with status := statusWord k false }

/-- The successful end of a command: `STATUS` is `Success` with the warning given (10_state.md R25). -/
def succeed (warn : Bool) (s : State) : Result := .next { s with status := statusWord .success warn }

/-- A condition without which the spec refuses the command (93_implementation_defined.md Part 1). -/
def require (ok : Bool) (r : Refusal) (go : Result) : Result := if ok then go else .refused r

end Sys2Proof.Machine
end

