-- ==== Sys2Proof/Machine/Operands.lean ====
section
/-! DEFINITION. Where a command's operands come from: registers, the delimiter, carriers, pixels (20_memory.md R50). -/

namespace Sys2Proof.Machine

/-! ### Operand registers (10_state.md R20) -/

/-- `x[REG]` (00_scope.md R9). -/
def State.operand (s : State) : OperandReg → Word
  | .n => s.n
  | .h => s.h
  | .w => s.w
  | .sh => s.sh
  | .sw => s.sw
  | .tlen => s.tlen
  | .blen => s.blen

/-- `x[REG] <- v` (00_scope.md R9). -/
def State.setOperand (s : State) (r : OperandReg) (v : Word) : State :=
  match r with
  | .n => { s with n := v }
  | .h => { s with h := v }
  | .w => { s with w := v }
  | .sh => { s with sh := v }
  | .sw => { s with sw := v }
  | .tlen => { s with tlen := v }
  | .blen => { s with blen := v }

/-! ### Text and delimiter -/

/-- The text `TXT[0 .. TLEN)`. -/
def State.text (s : State) : List CodePoint := s.txt.front s.tlen.toNat

/-- The delimiter `DELIM[0 .. DLEN)` (10_state.md R24). -/
def State.delimiter (s : State) : List CodePoint := s.delim.take s.dlen.toNat

/-! ### Samples (10_state.md R29; 30_encoding.md R86) -/

/-- A sample fits the selected width (93_implementation_defined.md U8). -/
def fitsWidth (w : SampleWidth) (v : Sample) : Bool :=
  match w with
  | .img => decide (v.toNat < 2 ^ 8)
  | .aud => true

/-- U8's premise: every element of CAR`[0..n)` that holds a value fits the width (log 7). -/
def samplesFit (w : SampleWidth) (car : Space 16) (n : Nat) : Bool :=
  car.cells.all fun c => decide (n ≤ c.1) || fitsWidth w c.2

/-- `(v & ~1) | b`: bit 0 replaced (42_lsb_carrier_codec.md R131; 20_memory.md R57). -/
def setBit0 (v : Sample) (b : Bit) : Sample := (v &&& ~~~1) ||| b.setWidth 16

/-- Bit 0 of a sample. -/
def bit0 (v : Sample) : Bit := v.extractLsb' 0 1

/-! ### Pixels (20_memory.md R52, R53; 30_encoding.md R84) -/

/-- The flat index of the byte at row `y`, column `x`, channel `c` of an image of the given width: `idx` of R52 for
width `W`, `sidx` of R53 for width `SW`. -/
def pixelIndex (width y x c : Nat) : Nat := (y * width + x) * 3 + c

/-- The coordinates `(y, x, c)` of an image, rows first, then columns, then the three channels: the loops of
43_pixel_substitution_codec.md R161 and R163. -/
def pixels (height width : Nat) : List (Nat × Nat × Nat) :=
  (List.range height).flatMap fun y => (List.range width).flatMap fun x => (List.range 3).map fun c => (y, x, c)

/-- The mask `(1 << k) - 1` in 8 bits (30_encoding.md R84). -/
def lowMask (k : Nat) : Byte := (1 <<< k) - 1

/-- A header byte: the low `d + 1` bits cleared, then bit `d` set to the header bit (R84, R161). -/
def headerByte (d : Nat) (hb : Bit) (b : Byte) : Byte := (b &&& ~~~lowMask (d + 1)) ||| (hb.setWidth 8 <<< d)

/-- A payload byte: the low `d` bits replaced by the secret byte's top `d` bits (R84, R161). -/
def payloadByte (d : Nat) (secret b : Byte) : Byte := (b &&& ~~~lowMask d) ||| (secret >>> (8 - d))

/-- A reconstructed byte: the low `d` bits shifted to the top (R163). -/
def reconByte (d : Nat) (b : Byte) : Byte := ((b &&& lowMask d) <<< (8 - d)) &&& 0xFF

/-- Bit `d` of a byte: `(b >> d) & 1` (R163). -/
def headerBit (d : Nat) (b : Byte) : Bit := (b >>> d).extractLsb' 0 1

/-- The dimension header `bits_msb(SW, 32) ++ bits_msb(SH, 32)` (30_encoding.md R83). -/
def dimensionHeader (sw sh : Nat) : List Bit := bitsMsb sw 32 ++ bitsMsb sh 32

/-- The 8-bit view of a CAR element for the pixel commands (10_state.md R29). -/
def sampleByte (v : Sample) : Byte := v.setWidth 8

end Sys2Proof.Machine
end

