-- ==== Sys2Proof/Machine/Carrier.lean ====
section
/-! DEFINITION. The Length-Prefixed Single-Bit Carrier Codec: `CFG.DELIM`, `LSB.EMB`, `LSB.EXT`
(42_lsb_carrier_codec.md). -/

namespace Sys2Proof.Machine

/-- `CFG.DELIM` (R130). The register file's elements from `TLEN` up keep their values. -/
def execCfgDelim (s : State) : Result :=
  if s.cfg.delimMax < s.tlen.toNat then raise .configurationError s
  else
    require (decide (s.tlen.toNat ≤ s.cfg.capTxt)) .overCapacity <|
    require (s.txt.written (List.range s.tlen.toNat)) .unwrittenElement <|
    require (s.text.all isScalar) .nonScalarText <|
    succeed false { s with delim := s.text ++ s.delim.drop s.tlen.toNat, dlen := s.tlen }

/-- Replaces bit 0 of successive samples by successive bits, as far as both go: R131's two loops, header then payload,
over distinct samples in order. That it stops at the last sample is the strict guard `i + 32 < N` (R132). -/
def embedBits : List Bit → List Sample → List Sample
  | b :: bs, v :: vs => setBit0 v b :: embedBits bs vs
  | [], vs => vs
  | _, [] => []

/-- `LSB.EMB w` (R131). `M + 32 <= N` is over naturals (R137). -/
def execLsbEmb (w : SampleWidth) (s : State) : Result :=
  let n := s.n.toNat
  let m := s.blen.toNat
  if n < m + 32 then raise .capacityExceeded s
  else
    require (decide (n ≤ s.cfg.capCar) && decide (m ≤ s.cfg.capBit)) .overCapacity <|
    require (s.car.written (List.range n) && s.bit.written (List.range m)) .unwrittenElement <|
    require (samplesFit w s.car n) .sampleTooWide <|
    succeed false { s with out := s.out.store 0 (embedBits (bitsMsb m 32 ++ s.bit.front m) (s.car.front n)) }

/-- Bit 0 of CAR elements `first, …, first + count - 1`. -/
def carrierBits (car : Space 16) (first count : Nat) : List Bit :=
  (List.range' first count).map fun i => bit0 (car.read i)

/-- The rest of `LSB.EXT` once the length `m` is read and written to `HDR0` (R133): validation, then extraction. -/
def extractText (m : Nat) (s : State) : Result :=
  if 0 < m ∧ m + 32 ≤ s.n.toNat then
    let r := truncateAt s.delimiter (bitsToText (carrierBits s.car 32 m))
    require (s.car.written (List.range' 32 m)) .unwrittenElement <|
    require (decide (r.1.length ≤ s.cfg.capTxt)) .overCapacity <|
    succeed r.2 { s with txt := s.txt.store 0 r.1, tlen := BitVec.ofNat 32 r.1.length }
  else raise .invalidHeader s

/-- `LSB.EXT w` (R133). The header's `HDR0` write survives a later failure (10_state.md R26). -/
def execLsbExt (w : SampleWidth) (s : State) : Result :=
  let n := s.n.toNat
  if n < 32 then raise .invalidHeader s
  else
    require (decide (n ≤ s.cfg.capCar)) .overCapacity <|
    require (s.car.written (List.range 32)) .unwrittenElement <|
    require (samplesFit w s.car n) .sampleTooWide <|
    let m := valMsb (carrierBits s.car 0 32)
    extractText m { s with hdr0 := BitVec.ofNat 32 m }

end Sys2Proof.Machine
end

