-- ==== Sys2Proof/Machine/Pixel.lean ====
section
/-! DEFINITION. The Variable-Depth Pixel Substitution Codec: `CFG.PIX`, `PIX.EMB`, `PIX.EXT`
(43_pixel_substitution_codec.md). -/

namespace Sys2Proof.Machine

/-- `CFG.PIX ch, d` (R160); `ch = 3` is the one well-formed channel outside {0, 1, 2} (92 D9; log 14). -/
def execCfgPix (ch d : Nat) (s : State) : Result :=
  if d < 1 ∨ 4 < d then raise .configurationError s
  else if 2 < ch then raise .configurationError s
  else succeed false { s with pixcfg := pixcfgWord ch d }

/-- Step 1 of `PIX.EMB`: the dimension header in row 0, columns `[0, 64)`, channel `ch` (R161). -/
def embedHeader (width ch d : Nat) (dh : List Bit) (work : List Byte) : List Byte :=
  (List.range 64).foldl (fun wk k => wk.modify (pixelIndex width 0 k ch) (headerByte d (dh.getD k 0))) work

/-- Step 2 of `PIX.EMB`, after step 1 (R161, R162): the secret's bytes at the same coordinates of the cover. -/
def embedPayload (width d sh sw : Nat) (sec : Space 8) (work : List Byte) : List Byte :=
  (pixels sh sw).foldl
    (fun wk p => wk.modify (pixelIndex width p.1 p.2.1 p.2.2)
      (payloadByte d (sec.read (pixelIndex sw p.1 p.2.1 p.2.2)))) work

/-- The working copy of `PIX.EMB` when both steps are done. -/
def State.stegoImage (s : State) : List Byte :=
  embedPayload s.w.toNat s.bitDepth s.sh.toNat s.sw.toNat s.sec <|
  embedHeader s.w.toNat s.channel s.bitDepth (dimensionHeader s.sw.toNat s.sh.toNat) <|
  (s.car.front (3 * s.h.toNat * s.w.toNat)).map sampleByte

/-- `PIX.EMB` (R161). -/
def execPixEmb (s : State) : Result :=
  let h := s.h.toNat
  let w := s.w.toNat
  let sh := s.sh.toNat
  let sw := s.sw.toNat
  if ¬ (64 ≤ w ∧ sh ≤ h ∧ sw ≤ w) then raise .capacityExceeded s
  else if h = 0 then raise .capacityExceeded s
  else
    require (decide (3 * h * w ≤ s.cfg.capCar) && decide (3 * sh * sw ≤ s.cfg.capSec)) .overCapacity <|
    require (s.car.written (List.range (3 * h * w)) && s.sec.written (List.range (3 * sh * sw))) .unwrittenElement <|
    require (samplesFit .img s.car (3 * h * w)) .sampleTooWide <|
    succeed false { s with out := s.out.store 0 (s.stegoImage.map (BitVec.setWidth 16)) }

/-- The 64 header bits of the image in CAR (R163). -/
def State.imageHeader (s : State) : List Bit :=
  (List.range 64).map fun k =>
    headerBit s.bitDepth (sampleByte (s.car.read (pixelIndex s.w.toNat 0 k s.channel)))

/-- The rest of `PIX.EXT` once the dimensions are read and written to `HDR0`, `HDR1` (R163): validation, then
extraction. -/
def extractImage (sw sh : Nat) (s : State) : Result :=
  let w := s.w.toNat
  if 0 < sw ∧ 0 < sh ∧ sw ≤ w ∧ sh ≤ s.h.toNat then
    let from_ := (pixels sh sw).map fun p => pixelIndex w p.1 p.2.1 p.2.2
    require (decide (3 * sh * sw ≤ s.cfg.capSec)) .overCapacity <|
    require (s.car.written from_) .unwrittenElement <|
    succeed false
      { s with
        recon := s.recon.store 0 (from_.map fun a => reconByte s.bitDepth (sampleByte (s.car.read a)))
        sw := BitVec.ofNat 32 sw
        sh := BitVec.ofNat 32 sh }
  else raise .invalidHeader s

/-- `PIX.EXT` (R163). -/
def execPixExt (s : State) : Result :=
  let h := s.h.toNat
  let w := s.w.toNat
  if w < 64 ∨ h < 1 then raise .invalidHeader s
  else
    require (decide (3 * h * w ≤ s.cfg.capCar)) .overCapacity <|
    require (s.car.written ((List.range 64).map fun k => pixelIndex w 0 k s.channel)) .unwrittenElement <|
    require (samplesFit .img s.car (3 * h * w)) .sampleTooWide <|
    let sw := valMsb (s.imageHeader.take 32)
    let sh := valMsb (s.imageHeader.drop 32)
    extractImage sw sh { s with hdr0 := BitVec.ofNat 32 sw, hdr1 := BitVec.ofNat 32 sh }

end Sys2Proof.Machine
end

