-- ==== Sys2Proof/Machine/Text.lean ====
section
/-! DEFINITION. The Text Bit Codec: `TXT.ENC` and `TXT.DEC` (41_text_bit_codec.md). -/

namespace Sys2Proof.Machine

/-- The bits that `TXT.ENC` produces: the bitstream of text and delimiter (R80, R110). -/
def State.encodedText (s : State) : List Bit := bytesToBits (utf8s (s.text ++ s.delimiter))

/-- `TXT.ENC` (R110). -/
def execTxtEnc (s : State) : Result :=
  let bits := s.encodedText
  require (decide (s.tlen.toNat ≤ s.cfg.capTxt)) .overCapacity <|
  require (s.txt.written (List.range s.tlen.toNat)) .unwrittenElement <|
  require ((s.text ++ s.delimiter).all isScalar) .nonScalarText <|
  require (decide (bits.length < 2 ^ 32) && decide (bits.length ≤ s.cfg.capBit)) .overCapacity <|
  succeed false { s with bit := s.bit.store 0 bits, blen := BitVec.ofNat 32 bits.length }

/-- `TXT.DEC` (R112). Of `BIT[0 .. BLEN)` the last `BLEN mod 8` bits are "not even read" (log 8). -/
def execTxtDec (s : State) : Result :=
  let groups := s.blen.toNat / 8
  let text := bitsToText (s.bit.front (8 * groups))
  require (decide (s.blen.toNat ≤ s.cfg.capBit)) .overCapacity <|
  require (s.bit.written (List.range (8 * groups))) .unwrittenElement <|
  require (decide (groups ≤ s.cfg.capTxt)) .overCapacity <|
  succeed false { s with txt := s.txt.store 0 text, tlen := BitVec.ofNat 32 text.length }

end Sys2Proof.Machine
end

