-- ==== Sys2Proof/Machine/Dispatch.lean ====
section
/-! DEFINITION. One arm per command (30_encoding.md R87). -/

namespace Sys2Proof.Machine

def exec (i : Instr) (s : State) : Host.Outcome State Fault Refusal :=
  match i with
  | .cfgDelim => Sys2Proof.Machine.execCfgDelim s
  | .cfgPix ch d => Sys2Proof.Machine.execCfgPix ch d s
  | .txtEnc => Sys2Proof.Machine.execTxtEnc s
  | .txtDec => Sys2Proof.Machine.execTxtDec s
  | .lsbEmb w => Sys2Proof.Machine.execLsbEmb w s
  | .lsbExt w => Sys2Proof.Machine.execLsbExt w s
  | .pixEmb => Sys2Proof.Machine.execPixEmb s
  | .pixExt => Sys2Proof.Machine.execPixExt s

end Sys2Proof.Machine
end

