-- ==== Sys2Proof/Machine/HostPort.lean ====
section
/-! DEFINITION. What each host action does (70_reset_and_hazards.md R222, R232; 30_encoding.md R90). -/

namespace Sys2Proof.Machine

/-- One write of a word to `CMD` (10_state.md R27): the command it decodes to runs to completion; a word that is no
command raises `IllegalCommand` (30_encoding.md R88). -/
def issueCommand (word : Word) (s : State) : Result :=
  match decode word with
  | .ok i => exec i s
  | .error _ => raise .illegalCommand s

/-- A host access to `count` elements from `first` stays within the space's capacity, else there is no such element
(log 10). -/
def hostAccess (first count cap : Nat) (go : Result) : Result :=
  if count = 0 ∨ first + count ≤ cap then go else .fault .noSuchElement

/-- The word the host reads from a register (70 R232); a DELIM element is zero-extended. -/
def State.hostRegister (s : State) : HostReg → Word
  | .operand r => s.operand r
  | .pixcfg => s.pixcfg
  | .dlen => s.dlen
  | .delim j => (s.delim.getD j 0).setWidth 32
  | .status => s.status
  | .hdr0 => s.hdr0
  | .hdr1 => s.hdr1

/-- The value the host reads from an element of a space, if the element holds one (10_state.md R28). -/
def State.hostElement (s : State) (sp : SpaceName) (i : Nat) : Option Nat :=
  match sp with
  | .car => (s.car.get i).map BitVec.toNat
  | .out => (s.out.get i).map BitVec.toNat
  | .sec => (s.sec.get i).map BitVec.toNat
  | .recon => (s.recon.get i).map BitVec.toNat
  | .txt => (s.txt.get i).map BitVec.toNat
  | .bit => (s.bit.get i).map BitVec.toNat

/-- The capacity of a space (00_scope.md R7). -/
def State.capacity (s : State) : SpaceName → Nat
  | .car => s.cfg.capCar
  | .out => s.cfg.capCar
  | .sec => s.cfg.capSec
  | .recon => s.cfg.capSec
  | .txt => s.cfg.capTxt
  | .bit => s.cfg.capBit

/-- A host read of a register has no side effect (20_memory.md R60); there is no DELIM element at or beyond
`DELIM_MAX`. -/
def hostReadReg (r : HostReg) (s : State) : Result :=
  match r with
  | .delim j => hostAccess j 1 s.cfg.delimMax (.next s)
  | .operand _ => .next s
  | .pixcfg => .next s
  | .dlen => .next s
  | .status => .next s
  | .hdr0 => .next s
  | .hdr1 => .next s

/-- A host read of an element has no side effect (20_memory.md R60); an element that holds no value cannot be read
(log 17). -/
def hostReadElem (sp : SpaceName) (i : Nat) (s : State) : Result :=
  hostAccess i 1 (s.capacity sp) <| require (s.hostElement sp i).isSome .unwrittenElement (.next s)

/-- The block is reset by the host (70 R220): the state of R33, with the parameters and the actions still to be
performed kept, which are not the block's (log 15). -/
def hostReset (s : State) : Result := .next { State.resetWith s.cfg with host := s.host }

/-- Performs one host action. -/
def performHost (a : HostAction) (s : State) : Result :=
  match a with
  | .command word => issueCommand word s
  | .writeReg r v => .next (s.setOperand r v)
  | .loadCar first vals => hostAccess first vals.length s.cfg.capCar (.next { s with car := s.car.store first vals })
  | .loadOut first vals => hostAccess first vals.length s.cfg.capCar (.next { s with out := s.out.store first vals })
  | .loadSec first vals => hostAccess first vals.length s.cfg.capSec (.next { s with sec := s.sec.store first vals })
  | .loadRec first vals =>
    hostAccess first vals.length s.cfg.capSec (.next { s with recon := s.recon.store first vals })
  | .loadTxt first vals => hostAccess first vals.length s.cfg.capTxt (.next { s with txt := s.txt.store first vals })
  | .loadBit first vals => hostAccess first vals.length s.cfg.capBit (.next { s with bit := s.bit.store first vals })
  | .copyOutToCar => .next { s with car := s.car.overwriteWith s.out }
  | .readReg r => hostReadReg r s
  | .readElem sp i => hostReadElem sp i s
  | .reset => hostReset s

/-- `.text "..."` (30_encoding.md R90): loads TXT with the code points and sets `TLEN`. What `TLEN` becomes for a string
of `2^32` code points or more, the spec does not say: here the length modulo `2^32` (DESIGN CHOICE, log 19). -/
def loadTextActions (t : List CodePoint) : List HostAction :=
  [.loadTxt 0 t, .writeReg .tlen (BitVec.ofNat 32 t.length)]

/-- The pseudo-commands of 30_encoding.md R91. -/
inductive Pseudo where
  /-- `HIDE.TXT w`. -/
  | hideTxt (w : SampleWidth)
  /-- `SHOW.TXT w`. -/
  | showTxt (w : SampleWidth)
  /-- `HIDE.IMG`. -/
  | hideImg
  /-- `SHOW.IMG`. -/
  | showImg
  deriving DecidableEq, Repr

/-- The expansion of a pseudo-command, which has no word of its own (R91). -/
def expandPseudo : Pseudo → List Instr
  | .hideTxt w => [.txtEnc, .lsbEmb w]
  | .showTxt w => [.lsbExt w]
  | .hideImg => [.pixEmb]
  | .showImg => [.pixExt]

/-- The host actions a pseudo-command stands for: one write to `CMD` for each command of its expansion. -/
def pseudoActions (p : Pseudo) : List HostAction := (expandPseudo p).map fun i => .command (encode i)

end Sys2Proof.Machine
end

