-- ==== Sys2Proof/Machine/Step.lean ====
section
/-! DEFINITION. One step: the oldest pending host action is performed, to completion. -/

namespace Sys2Proof.Machine

/-- The block acts only when the host does (70_reset_and_hazards.md R231), and a command is one step (R229). With no
action pending it is idle. -/
def step (s : State) : Host.Outcome State Fault Refusal :=
  match s.host with
  | [] => .next s
  | a :: rest => performHost a { s with host := rest }

/-- The next host action is the write of this word to `CMD`; a command word is fetched from nowhere else
(20_memory.md R69; log 1). -/
def State.withFetchWord (s : State) (nbits w : Nat) : State :=
  { s with host := .command (BitVec.ofNat 32 (w % 2 ^ nbits)) :: s.host }

end Sys2Proof.Machine
end

