-- ==== Sys2Proof/Safety.lean ====
section
/-! DEFINITION. The states the machine can be in, and when a result may be used, in the terms statements use. -/

namespace Sys2Proof.Machine

/-- `PIXCFG` "never holds an illegal value" (10_state.md R23): channel 0 to 2, bit depth 1 to 4, bits 31:5 zero. -/
abbrev State.pixcfgLegal (s : State) : Prop :=
  s.channel ≤ 2 ∧ 1 ≤ s.bitDepth ∧ s.bitDepth ≤ 4 ∧ s.pixcfg.extractLsb' 5 27 = 0

/-- The delimiter registers (10_state.md R24): `DELIM_MAX` elements, `DLEN <= DELIM_MAX`, and "every element of it is
a Unicode scalar value". -/
abbrev State.delimLegal (s : State) : Prop :=
  s.delim.length = s.cfg.delimMax ∧ s.dlen.toNat ≤ s.cfg.delimMax ∧ s.delimiter.all isScalar = true

/-- What `STATUS` can hold (10_state.md R25; 60_exceptions.md R198): a kind the block writes, and `WARN` only with
`Success`. -/
abbrev State.statusLegal (s : State) : Prop :=
  s.status ∈ [statusWord .success false, statusWord .success true, statusWord .capacityExceeded false,
    statusWord .invalidHeader false, statusWord .configurationError false, statusWord .illegalCommand false]

/-- The invariant of the machine: the parameters are admissible, every space is in canonical form and within its
capacity, and the configuration and status registers hold legal values. -/
structure State.Inv (s : State) : Prop where
  cfgWf : s.cfg.wf
  carWf : s.car.wf
  outWf : s.out.wf
  secWf : s.sec.wf
  reconWf : s.recon.wf
  txtWf : s.txt.wf
  bitWf : s.bit.wf
  carWithin : s.car.within s.cfg.capCar
  outWithin : s.out.within s.cfg.capCar
  secWithin : s.sec.within s.cfg.capSec
  reconWithin : s.recon.within s.cfg.capSec
  txtWithin : s.txt.within s.cfg.capTxt
  bitWithin : s.bit.within s.cfg.capBit
  pixcfg : s.pixcfgLegal
  delim : s.delimLegal
  status : s.statusLegal

/-- The elements from `first` on hold the values `xs`: how statements say that the host has set up an operand
(70_reset_and_hazards.md R222). -/
abbrev Space.holds {w : Nat} (m : Space w) (first : Nat) (xs : List (BitVec w)) : Prop :=
  ∀ i, i < xs.length → m.get (first + i) = xs[i]?

/-- U8's premise as statements say it: every element of CAR`[0..n)` that holds a value fits the sample width. -/
abbrev State.carFits (s : State) (w : SampleWidth) (n : Nat) : Prop :=
  ∀ i, i < n → ∀ v, s.car.get i = some v → w = .img → v.toNat < 2 ^ 8

/-- Bit 0 of CAR`[0..32)` spells the length `m`, most significant bit first (30_encoding.md R81). -/
abbrev State.spellsLength (s : State) (m : Word) : Prop :=
  ∀ i, i < 32 → ∃ v, s.car.get i = some v ∧ v.getLsbD 0 = m.getLsbD (31 - i)

/-- Bit `BIT_DEPTH` of the 64 header bytes in CAR spells the dimensions `sw`, `sh` (30_encoding.md R83). -/
abbrev State.spellsDimensions (s : State) (sw sh : Word) : Prop :=
  (∀ k, k < 32 → ∃ v, s.car.get (3 * k + s.channel) = some v ∧ v.getLsbD s.bitDepth = sw.getLsbD (31 - k)) ∧
  ∀ k, k < 32 → ∃ v, s.car.get (3 * (32 + k) + s.channel) = some v ∧ v.getLsbD s.bitDepth = sh.getLsbD (31 - k)

/-- `PIX.EMB`'s register checks pass: the header and the secret fit the cover (43_pixel_substitution_codec.md R161). -/
abbrev State.secretFits (s : State) : Prop :=
  64 ≤ s.w.toNat ∧ s.sh.toNat ≤ s.h.toNat ∧ s.sw.toNat ≤ s.w.toNat ∧ 0 < s.h.toNat

/-- The cover and the secret of `PIX.EMB` are within their capacities (00_scope.md R7). -/
abbrev State.imagesWithin (s : State) : Prop :=
  3 * s.h.toNat * s.w.toNat ≤ s.cfg.capCar ∧ 3 * s.sh.toNat * s.sw.toNat ≤ s.cfg.capSec

/-- Every element `[0, n)` holds a value (10_state.md R28). -/
abbrev Space.holdsAll {w : Nat} (m : Space w) (n : Nat) : Prop := ∀ i, i < n → (m.get i).isSome = true

/-- The last command succeeded: the condition the host must test before it uses a result (60_exceptions.md R193). -/
abbrev State.succeeded (s : State) : Prop := s.kindField = 0

/-- A run of `k` steps is safe when no step stops. -/
abbrev SafeFor (k : Nat) (s : State) : Prop := ∃ t, Sys2Proof.core.run k s = .next t

end Sys2Proof.Machine
end

