-- ==== Sys2Proof/Certificates/Slice0/Obligations.lean ====
section
/-! DEFINITION. The statements for the provers. Each docstring names the rule of the spec it formalises.
`t = { s with … }` in a conclusion is the frame: every field not named is unchanged. -/

open Sys2Proof Sys2Proof.Machine

/-! ### Encodings (30_encoding.md) -/

/-- Words written out from R85's formats and R87's map decode to the commands they stand for; words of
95_test_vectors.md V-ILL-1 are no command. -/
def Obligations.WrittenOutWordsDecode : Prop :=
  decode 0x01000000 = .ok .cfgDelim ∧ decode 0x02000201 = .ok (.cfgPix 1 2) ∧ decode 0x02000403 = .ok (.cfgPix 3 4) ∧
  decode 0x10000000 = .ok .txtEnc ∧ decode 0x11000000 = .ok .txtDec ∧ decode 0x20000000 = .ok (.lsbEmb .img) ∧
  decode 0x20000001 = .ok (.lsbEmb .aud) ∧ decode 0x21000001 = .ok (.lsbExt .aud) ∧ decode 0x30000000 = .ok .pixEmb ∧
  decode 0x31000000 = .ok .pixExt ∧ decode 0x12000000 = .error (.reservedOpcode 0x12) ∧
  decode 0x20000002 = .error (.nonzeroReservedBits 0x20000002) ∧
  decode 0x02010400 = .error (.nonzeroReservedBits 0x02010400)

/-- Decoding the word of a well-formed command gives it back: no operand bit of R85's formats is dropped. -/
def Obligations.DecodeInvertsEncode : Prop :=
  ∀ i : Instr, i.wf = true → decode (encode i) = .ok i

/-- Every word the decoder accepts is the word of the command it gives: each command has one word (R85, R89). -/
def Obligations.EncodeInvertsDecode : Prop :=
  ∀ (w : Word) (i : Instr), decode w = .ok i → i.wf = true ∧ encode i = w

/-- R87: a word selects a row when `c & mask = match`, no two rows match the same word, and the decoder reads the
selected row's command and nothing else. -/
def Obligations.DecoderFollowsOpcodeMap : Prop :=
  ∀ c : Word,
    (∀ r ∈ opcodeTable, r.selectedBy c = true → ∃ i, decode c = .ok i ∧ i.mnemonic = r.mnemonic) ∧
    ((∀ r ∈ opcodeTable, r.selectedBy c = false) → ∃ e, decode c = .error e) ∧
    (∀ r₁ ∈ opcodeTable, ∀ r₂ ∈ opcodeTable, r₁.selectedBy c = true → r₂.selectedBy c = true → r₁ = r₂)

/-- R88: a word that matches no row changes only STATUS, to 5; `CFG.PIX` words with an illegal operand value decode and
fail in execution with ConfigurationError. -/
def Obligations.IllegalWordChangesOnlyStatus : Prop :=
  (∀ (s : State) (c : Word) (rest : List HostAction), s.host = .command c :: rest →
    (∀ r ∈ opcodeTable, r.selectedBy c = false) → step s = .next { s with host := rest, status := 5 }) ∧
  (∀ (s : State) (ch d : Nat), ch < 4 → d < 256 → (ch = 3 ∨ d < 1 ∨ 4 < d) →
    decode (encode (.cfgPix ch d)) = .ok (.cfgPix ch d) ∧ exec (.cfgPix ch d) s = .next { s with status := 3 })

/-! ### Steps and the host (70_reset_and_hazards.md) -/

/-- A step whose oldest host action writes a command's word runs that command at the state with the action taken off;
with no action pending the block is idle (the model's choice, log 1). -/
def Obligations.StepRunsTheDecodedCommand : Prop :=
  (∀ (s : State) (c : Word) (i : Instr) (rest : List HostAction), s.host = .command c :: rest → decode c = .ok i →
    step s = exec i { s with host := rest }) ∧
  (∀ s : State, s.host = [] → step s = .next s)

/-- Writing an operand register (R20, R232): that register takes the value, the other six and everything else keep
theirs. -/
def Obligations.HostWriteSetsOneRegister : Prop :=
  ∀ (s : State) (r : OperandReg) (v : Word) (rest : List HostAction), s.host = .writeReg r v :: rest →
    ∃ t, step s = .next t ∧ t.operand r = v ∧ (∀ r', r' ≠ r → t.operand r' = s.operand r') ∧
      t = { s with n := t.n, h := t.h, w := t.w, sh := t.sh, sw := t.sw, tlen := t.tlen, blen := t.blen, host := rest }

/-- Loading a space (R90, R232): within the capacity the loaded elements take the values and every other element of
that space, and everything else, is unchanged. That a load beyond the capacity faults is the model's choice (log 10). -/
def Obligations.HostLoadWritesOnlyItsElements : Prop :=
  ∀ (s : State) (first : Nat) (rest : List HostAction),
    (∀ vals : List Sample, s.host = .loadCar first vals :: rest → vals ≠ [] →
      if first + vals.length ≤ s.cfg.capCar then
        ∃ t, step s = .next t ∧ t = { s with car := t.car, host := rest } ∧ t.car.holds first vals ∧
          ∀ i, i < first ∨ first + vals.length ≤ i → t.car.get i = s.car.get i
      else step s = .fault .noSuchElement) ∧
    (∀ vals : List Sample, s.host = .loadOut first vals :: rest → vals ≠ [] →
      if first + vals.length ≤ s.cfg.capCar then
        ∃ t, step s = .next t ∧ t = { s with out := t.out, host := rest } ∧ t.out.holds first vals ∧
          ∀ i, i < first ∨ first + vals.length ≤ i → t.out.get i = s.out.get i
      else step s = .fault .noSuchElement) ∧
    (∀ vals : List Byte, s.host = .loadSec first vals :: rest → vals ≠ [] →
      if first + vals.length ≤ s.cfg.capSec then
        ∃ t, step s = .next t ∧ t = { s with sec := t.sec, host := rest } ∧ t.sec.holds first vals ∧
          ∀ i, i < first ∨ first + vals.length ≤ i → t.sec.get i = s.sec.get i
      else step s = .fault .noSuchElement) ∧
    (∀ vals : List Byte, s.host = .loadRec first vals :: rest → vals ≠ [] →
      if first + vals.length ≤ s.cfg.capSec then
        ∃ t, step s = .next t ∧ t = { s with recon := t.recon, host := rest } ∧ t.recon.holds first vals ∧
          ∀ i, i < first ∨ first + vals.length ≤ i → t.recon.get i = s.recon.get i
      else step s = .fault .noSuchElement) ∧
    (∀ vals : List CodePoint, s.host = .loadTxt first vals :: rest → vals ≠ [] →
      if first + vals.length ≤ s.cfg.capTxt then
        ∃ t, step s = .next t ∧ t = { s with txt := t.txt, host := rest } ∧ t.txt.holds first vals ∧
          ∀ i, i < first ∨ first + vals.length ≤ i → t.txt.get i = s.txt.get i
      else step s = .fault .noSuchElement) ∧
    (∀ vals : List Bit, s.host = .loadBit first vals :: rest → vals ≠ [] →
      if first + vals.length ≤ s.cfg.capBit then
        ∃ t, step s = .next t ∧ t = { s with bit := t.bit, host := rest } ∧ t.bit.holds first vals ∧
          ∀ i, i < first ∨ first + vals.length ≤ i → t.bit.get i = s.bit.get i
      else step s = .fault .noSuchElement)

/-- `.copy OUT, CAR` (R66, R222, R90): afterwards CAR holds every element OUT holds, keeps its other elements (log 11),
and nothing else, OUT included, has changed. -/
def Obligations.CopyMakesCarHoldOut : Prop :=
  ∀ (s : State) (rest : List HostAction), s.host = .copyOutToCar :: rest → s.out.wf →
    ∃ t, step s = .next t ∧ t = { s with car := t.car, host := rest } ∧
      ∀ i, t.car.get i = if (s.out.get i).isSome then s.out.get i else s.car.get i

/-- R60: host reads have no side effects; reading a register, or an element that holds a value, changes nothing. That
reading an element without a value is refused is the model's choice (log 17). -/
def Obligations.HostReadsChangeNothing : Prop :=
  (∀ (s : State) (r : HostReg) (rest : List HostAction), s.host = .readReg r :: rest →
    (∀ j, r = .delim j → j < s.cfg.delimMax) → step s = .next { s with host := rest }) ∧
  (∀ (s : State) (sp : SpaceName) (i : Nat) (rest : List HostAction), s.host = .readElem sp i :: rest →
    i < s.capacity sp →
    step s = if (s.hostElement sp i).isSome then .next { s with host := rest } else .refused .unwrittenElement)

/-- R232: the host cannot write STATUS, HDR0, HDR1, PIXCFG, DELIM or DLEN directly, only through commands and reset. -/
def Obligations.HostCannotWriteResultRegisters : Prop :=
  ∀ (s t : State) (a : HostAction) (rest : List HostAction), s.host = a :: rest → (∀ c, a ≠ .command c) → a ≠ .reset →
    step s = .next t →
    t.status = s.status ∧ t.hdr0 = s.hdr0 ∧ t.hdr1 = s.hdr1 ∧ t.pixcfg = s.pixcfg ∧ t.delim = s.delim ∧
      t.dlen = s.dlen ∧ t.host = rest

/-- R221: reset is the only event besides a successful `CFG.DELIM` or `CFG.PIX` that changes the configuration. -/
def Obligations.ConfigurationChangesOnlyByItsCommands : Prop :=
  ∀ (s t : State), step s = .next t → (∀ rest, s.host ≠ .reset :: rest) →
    (t.pixcfg ≠ s.pixcfg →
      ∃ c ch d rest, s.host = .command c :: rest ∧ decode c = .ok (.cfgPix ch d) ∧ t.succeeded) ∧
    (t.delim ≠ s.delim ∨ t.dlen ≠ s.dlen →
      ∃ c rest, s.host = .command c :: rest ∧ decode c = .ok .cfgDelim ∧ t.succeeded)

/-- The values R33 and R220 state for reset, for every admissible value of the parameters, and that a host reset brings
the block to that state with the parameters kept (log 15). The values R33 leaves unspecified are not stated here. -/
def Obligations.ResetConstructsTheDefaults : Prop :=
  (∀ c : Config, c.wf →
    (State.resetWith c).cfg = c ∧ (State.resetWith c).channel = 0 ∧ (State.resetWith c).bitDepth = 4 ∧
    (State.resetWith c).pixcfg = 0x10 ∧ (State.resetWith c).dlen = 5 ∧
    (State.resetWith c).delimiter = [0x3C, 0x45, 0x4E, 0x44, 0x3E] ∧ (State.resetWith c).status = 0 ∧
    (State.resetWith c).hdr0 = 0 ∧ (State.resetWith c).hdr1 = 0 ∧
    ∀ i, (State.resetWith c).car.get i = none ∧ (State.resetWith c).out.get i = none ∧
      (State.resetWith c).sec.get i = none ∧ (State.resetWith c).recon.get i = none ∧
      (State.resetWith c).txt.get i = none ∧ (State.resetWith c).bit.get i = none) ∧
  (∃ c : Config, c.wf ∧ State.reset = State.resetWith c) ∧
  (∀ (s : State) (rest : List HostAction), s.host = .reset :: rest →
    step s = .next { State.resetWith s.cfg with host := rest })

/-! ### Helper functions (00_scope.md) -/

/-- R10: the elements of `bits_msb(v, n)`, and that `val_msb` is its inverse, both ways. -/
def Obligations.ValMsbInvertsBitsMsb : Prop :=
  (∀ n v : Nat, v < 2 ^ n →
    (bitsMsb v n).length = n ∧ valMsb (bitsMsb v n) = v ∧
    ∀ i, i < n → (bitsMsb v n)[i]? = some (BitVec.ofNat 1 ((v >>> (n - 1 - i)) % 2))) ∧
  (∀ b : List Bit, valMsb b < 2 ^ b.length ∧ bitsMsb (valMsb b) b.length = b ∧
    valMsb b = ((List.range b.length).map fun i => (b.getD i 0).toNat * 2 ^ (b.length - 1 - i)).sum)

/-- R11: the bytes of a scalar value, row by row of the table, in arithmetic of numbers. -/
def Obligations.Utf8FollowsItsTable : Prop :=
  (∀ cp : CodePoint, isScalar cp = true →
    let v := cp.toNat
    (v ≤ 0x7F → utf8 cp = [BitVec.ofNat 8 v]) ∧
    (0x80 ≤ v → v ≤ 0x7FF → utf8 cp = [BitVec.ofNat 8 (0xC0 + v / 64), BitVec.ofNat 8 (0x80 + v % 64)]) ∧
    (0x800 ≤ v → v ≤ 0xFFFF →
      utf8 cp = [BitVec.ofNat 8 (0xE0 + v / 4096), BitVec.ofNat 8 (0x80 + v / 64 % 64),
        BitVec.ofNat 8 (0x80 + v % 64)]) ∧
    (0x10000 ≤ v →
      utf8 cp = [BitVec.ofNat 8 (0xF0 + v / 262144), BitVec.ofNat 8 (0x80 + v / 4096 % 64),
        BitVec.ofNat 8 (0x80 + v / 64 % 64), BitVec.ofNat 8 (0x80 + v % 64)])) ∧
  (∀ t : List CodePoint, utf8s t = (t.map utf8).flatten) ∧
  (∀ cp : CodePoint, isScalar cp = true ↔ cp.toNat ≤ 0xD7FF ∨ (0xE000 ≤ cp.toNat ∧ cp.toNat ≤ 0x10FFFF))

/-- R12: `find` gives the least index at which the needle stands, none when there is none, and 0 for the empty
needle. -/
def Obligations.FindGivesTheFirstOccurrence : Prop :=
  ∀ hay needle : List CodePoint,
    (∀ p, find hay needle = some p ↔
      p + needle.length ≤ hay.length ∧ (hay.drop p).take needle.length = needle ∧
        ∀ q, q < p → (hay.drop q).take needle.length ≠ needle) ∧
    (find hay needle = none ↔
      ∀ p, p + needle.length ≤ hay.length → (hay.drop p).take needle.length ≠ needle) ∧
    find hay [] = some 0

/-! ### Text Bit Codec (41_text_bit_codec.md) -/

/-- R110: `TXT.ENC` completes on a text of scalar values whose bitstream fits, writes bit `7 - r` of byte `q` to
BIT`[8q + r]`, sets `BLEN` to 8 times the number of bytes, and changes nothing else; a text element that is no scalar
value, or a bitstream of `2^32` bits or more or above `CAP_BIT`, is refused. -/
def Obligations.TxtEncWritesTheBitstream : Prop :=
  decode 0x10000000 = .ok .txtEnc ∧
  ∀ (s : State) (text : List CodePoint), s.tlen.toNat = text.length → text.length ≤ s.cfg.capTxt → s.txt.holds 0 text →
    s.delimLegal →
    (text.all isScalar = false → exec .txtEnc s = .refused .nonScalarText) ∧
    (text.all isScalar = true →
      let bytes := utf8s (text ++ s.delim.take s.dlen.toNat)
      if 8 * bytes.length < 2 ^ 32 ∧ 8 * bytes.length ≤ s.cfg.capBit then
        ∃ t, exec .txtEnc s = .next t ∧
          t = { s with bit := t.bit, blen := BitVec.ofNat 32 (8 * bytes.length), status := 0 } ∧
          (∀ q r, q < bytes.length → r < 8 →
            t.bit.get (8 * q + r) = (bytes[q]?).map fun b => b.extractLsb' (7 - r) 1) ∧
          ∀ i, 8 * bytes.length ≤ i → t.bit.get i = s.bit.get i
      else exec .txtEnc s = .refused .overCapacity)

/-- R111: `BLEN` is a multiple of 8, and each code point of text and delimiter contributes 8, 16, 24 or 32 bits by its
row of R11. -/
def Obligations.TxtEncLengthByCodePoint : Prop :=
  ∀ s t : State, exec .txtEnc s = .next t →
    t.blen.toNat % 8 = 0 ∧
    t.blen.toNat = ((s.text ++ s.delimiter).map fun cp =>
      if cp.toNat ≤ 0x7F then 8 else if cp.toNat ≤ 0x7FF then 16 else if cp.toNat ≤ 0xFFFF then 24 else 32).sum

/-- R112: `TXT.DEC` completes when the whole groups of 8 bits are written, gives one code point in [0, 255] per group,
most significant bit first, drops a trailing run shorter than 8 bits, and changes nothing else. -/
def Obligations.TxtDecGivesOneCodePointPerByte : Prop :=
  decode 0x11000000 = .ok .txtDec ∧
  ∀ (s : State) (bits : List Bit), bits.length = 8 * (s.blen.toNat / 8) → s.blen.toNat ≤ s.cfg.capBit →
    s.blen.toNat / 8 ≤ s.cfg.capTxt → s.bit.holds 0 bits →
    ∃ t, exec .txtDec s = .next t ∧
      t = { s with txt := t.txt, tlen := BitVec.ofNat 32 (s.blen.toNat / 8), status := 0 } ∧
      (∀ q, q < s.blen.toNat / 8 → ∃ v, t.txt.get q = some v ∧ v.toNat ≤ 255 ∧
        ∀ r, r < 8 → bits[8 * q + r]? = some (v.extractLsb' (7 - r) 1)) ∧
      ∀ q, s.blen.toNat / 8 ≤ q → t.txt.get q = s.txt.get q

/-- R113: `TXT.ENC` then `TXT.DEC` yields the bytes of the text and delimiter, each read as a code point, and that is
the text and delimiter if and only if every code point is at most 0x7F. -/
def Obligations.TextCodecRoundTrip : Prop :=
  ∀ s s₁ : State, exec .txtEnc s = .next s₁ → (utf8s (s.text ++ s.delimiter)).length ≤ s.cfg.capTxt →
    ∃ s₂, exec .txtDec s₁ = .next s₂ ∧ s₂.status = 0 ∧
      s₂.text = (utf8s (s.text ++ s.delimiter)).map (BitVec.setWidth 21) ∧
      (s₂.text = s.text ++ s.delimiter ↔ ∀ cp ∈ s.text ++ s.delimiter, cp.toNat ≤ 0x7F)

/-! ### Length-Prefixed Single-Bit Carrier Codec (42_lsb_carrier_codec.md) -/

/-- R130: `CFG.DELIM` copies TXT`[0 .. TLEN)` to DELIM and `TLEN` to `DLEN`, and changes nothing else; a text longer
than the register file fails with ConfigurationError and changes only STATUS; an element that is no scalar value is
refused. That the failure comes before the refusal where `TLEN` is above `CAP_TXT` too is the model's reading (log 6). -/
def Obligations.CfgDelimSetsTheDelimiter : Prop :=
  decode 0x01000000 = .ok .cfgDelim ∧
  (∀ s : State, s.cfg.delimMax < s.tlen.toNat → exec .cfgDelim s = .next { s with status := 3 }) ∧
  ∀ (s : State) (text : List CodePoint), s.tlen.toNat = text.length → text.length ≤ s.cfg.delimMax →
    text.length ≤ s.cfg.capTxt → s.txt.holds 0 text →
    (text.all isScalar = false → exec .cfgDelim s = .refused .nonScalarText) ∧
    (text.all isScalar = true →
      ∃ t, exec .cfgDelim s = .next t ∧ t = { s with delim := t.delim, dlen := s.tlen, status := 0 } ∧
        (∀ j, j < text.length → t.delim[j]? = text[j]?) ∧
        (∀ j, text.length ≤ j → t.delim[j]? = s.delim[j]?) ∧ t.delimiter = text)

/-- R131 and R82: `LSB.EMB` completes when `M + 32 <= N` and its operands are set up; bit 0 of OUT`[j]` is bit `31 - j`
of `M` for `j < 32`, payload bit `j - 32` for `32 <= j < 32 + M`, and CAR's beyond; all other bits of OUT`[0 .. N)` are
CAR's; nothing else changes. When `M + 32 > N` it fails with CapacityExceeded and changes only STATUS. That this failure
comes before the refusal of U2 where `N` or `BLEN` is above its capacity is the model's reading (log 6). -/
def Obligations.LsbEmbWritesTheStegoCarrier : Prop :=
  decode 0x20000000 = .ok (.lsbEmb .img) ∧ decode 0x20000001 = .ok (.lsbEmb .aud) ∧
  (∀ (s : State) (w : SampleWidth), s.n.toNat < s.blen.toNat + 32 →
    exec (.lsbEmb w) s = .next { s with status := 1 }) ∧
  ∀ (s : State) (w : SampleWidth) (carrier : List Sample) (payload : List Bit),
    s.n.toNat = carrier.length → s.blen.toNat = payload.length → payload.length + 32 ≤ carrier.length →
    carrier.length ≤ s.cfg.capCar → payload.length ≤ s.cfg.capBit → s.car.wf → s.car.holds 0 carrier →
    s.bit.holds 0 payload → (w = .img → ∀ v ∈ carrier, v.toNat < 2 ^ 8) →
    ∃ t, exec (.lsbEmb w) s = .next t ∧ t = { s with out := t.out, status := 0 } ∧
      (∀ j, j < carrier.length → ∃ c o, carrier[j]? = some c ∧ t.out.get j = some o ∧
        (∀ k, 1 ≤ k → o.getLsbD k = c.getLsbD k) ∧
        o.getLsbD 0 =
          if j < 32 then s.blen.getLsbD (31 - j)
          else if j < 32 + payload.length then (payload.getD (j - 32) 0).getLsbD 0
          else c.getLsbD 0) ∧
      ∀ j, carrier.length ≤ j → t.out.get j = s.out.get j

/-- R133 and R134, success: with a header `M` such that `0 < M <= N - 32`, `LSB.EXT` completes, writes `M` to HDR0, and
writes the text of the `M` payload bits cut at the delimiter's first occurrence, or all of it with `WARN` = 1; nothing
else changes. That it completes with CAR`[32 + M .. N)` unwritten, which its pseudocode does not read, is the model's
reading (log 5). -/
def Obligations.LsbExtGivesTheTruncatedText : Prop :=
  ∀ (s : State) (w : SampleWidth) (m : Word) (samples : List Sample) (text : List CodePoint),
    0 < m.toNat → m.toNat + 32 ≤ s.n.toNat → s.n.toNat ≤ s.cfg.capCar → s.car.wf → s.carFits w s.n.toNat →
    samples.length = 32 + m.toNat → s.car.holds 0 samples →
    (∀ i, i < 32 → (samples.getD i 0).getLsbD 0 = m.getLsbD (31 - i)) →
    text = bitsToText ((samples.drop 32).map fun v => v.extractLsb' 0 1) → text.length ≤ s.cfg.capTxt →
    ∃ t r, exec (.lsbExt w) s = .next t ∧
      (match find text s.delimiter with
        | some p => r = text.take p ∧ t.status = 0
        | none => r = text ∧ t.status = 8) ∧
      t = { s with hdr0 := m, txt := t.txt, tlen := BitVec.ofNat 32 r.length, status := t.status } ∧
      t.txt.holds 0 r ∧ ∀ q, r.length ≤ q → t.txt.get q = s.txt.get q

/-- R133, failures: `N < 32` fails with InvalidHeader and leaves HDR0 unchanged; a header `M` of 0 or above `N - 32`
fails with InvalidHeader and HDR0 holds `M`; nothing else changes. In the second only the 32 header samples need hold
values: the model's reading (log 5). (`N < 32` with `N` above `CAP_CAR` fails rather than being refused: log 6.) -/
def Obligations.LsbExtRejectsInvalidHeaders : Prop :=
  (∀ (s : State) (w : SampleWidth), s.n.toNat < 32 → exec (.lsbExt w) s = .next { s with status := 2 }) ∧
  ∀ (s : State) (w : SampleWidth) (m : Word) (header : List Sample),
    32 ≤ s.n.toNat → s.n.toNat ≤ s.cfg.capCar → s.car.wf → s.carFits w s.n.toNat → header.length = 32 →
    s.car.holds 0 header → (∀ i, i < 32 → (header.getD i 0).getLsbD 0 = m.getLsbD (31 - i)) →
    (m.toNat = 0 ∨ s.n.toNat < m.toNat + 32) →
    exec (.lsbExt w) s = .next { s with hdr0 := m, status := 2 }

/-- R135: when the `LSB.EMB` of `HIDE.TXT` fails, BIT and `BLEN` stay as `TXT.ENC` wrote them and OUT and CAR are
unchanged; `HIDE.TXT w` is the two commands one after the other (R91). -/
def Obligations.HideTextIsEncodeThenEmbed : Prop :=
  ∀ (s s₁ s₂ : State) (w : SampleWidth) (rest : List HostAction), s.host = pseudoActions (.hideTxt w) ++ rest →
    exec .txtEnc { s with host := .command (encode (.lsbEmb w)) :: rest } = .next s₁ →
    exec (.lsbEmb w) { s₁ with host := rest } = .next s₂ →
    Sys2Proof.core.run 2 s = .next s₂ ∧ s₂.bit = s₁.bit ∧ s₂.blen = s₁.blen ∧ s₂.car = s.car ∧
      (s₂.kindField ≠ 0 → s₂.out = s.out ∧ s₂.kindField = 1)

/-- R136, all of it: after `HIDE.TXT w` and a copy of OUT to CAR, `SHOW.TXT w`. The embed succeeds if and only if the
bits and the header fit. For a text and a non-empty delimiter of code points at most 0x7F the extract succeeds with
STATUS 0 and gives the text up to the delimiter's first occurrence in text and delimiter: the text itself if and only if
that occurrence is at the text's end, a proper prefix otherwise. For any other text and delimiter, not both empty and
within the capacity, it still succeeds, and truncates the bytes read as code points; with both empty it fails with
InvalidHeader. That the extract is never refused for `CAP_TXT` in the first case rests on judging the truncated text
against it (log 6). -/
def Obligations.TextInCarrierRoundTrip : Prop :=
  ∀ (s s₁ s₂ : State) (w : SampleWidth), s.Inv → exec .txtEnc s = .next s₁ → exec (.lsbEmb w) s₁ = .next s₂ →
    let bytes := utf8s (s.text ++ s.delimiter)
    let shown := exec (.lsbExt w) { s₂ with car := s₂.car.overwriteWith s₂.out }
    (s₂.status = 0 ↔ 8 * bytes.length + 32 ≤ s.n.toNat) ∧
    (s₂.status = 0 → (∀ cp ∈ s.text, cp.toNat ≤ 0x7F) → s.delimiter ≠ [] → (∀ cp ∈ s.delimiter, cp.toNat ≤ 0x7F) →
      ∃ s₃ p, shown = .next s₃ ∧ s₃.status = 0 ∧
        find (s.text ++ s.delimiter) s.delimiter = some p ∧ p ≤ s.text.length ∧ s₃.text = s.text.take p ∧
        (s₃.text = s.text ↔ find (s.text ++ s.delimiter) s.delimiter = some s.text.length)) ∧
    (s₂.status = 0 → s.text ++ s.delimiter ≠ [] → bytes.length ≤ s.cfg.capTxt →
      ∃ s₃, shown = .next s₃ ∧ s₃.kindField = 0 ∧
        s₃.text = (truncateAt s.delimiter (bytes.map (BitVec.setWidth 21))).1) ∧
    (s₂.status = 0 → s.text ++ s.delimiter = [] → ∃ s₃, shown = .next s₃ ∧ s₃.status = 2)

/-! ### Variable-Depth Pixel Substitution Codec (43_pixel_substitution_codec.md) -/

/-- R160: `CFG.PIX ch, d` writes `PIXCFG` for a legal channel and bit depth; otherwise it fails with ConfigurationError
and `PIXCFG` keeps its value; nothing else changes. -/
def Obligations.CfgPixWritesOnlyLegalConfigurations : Prop :=
  ∀ (s : State) (ch d : Nat), ch < 4 → d < 256 →
    decode (0x02000000 ||| BitVec.ofNat 32 d <<< 8 ||| BitVec.ofNat 32 ch) = .ok (.cfgPix ch d) ∧
    (1 ≤ d → d ≤ 4 → ch ≤ 2 → ∃ t, exec (.cfgPix ch d) s = .next t ∧ t = { s with pixcfg := t.pixcfg, status := 0 } ∧
      t.channel = ch ∧ t.bitDepth = d ∧ t.pixcfg = BitVec.ofNat 32 (4 * d + ch)) ∧
    (d < 1 ∨ 4 < d ∨ ch = 3 → exec (.cfgPix ch d) s = .next { s with status := 3 })

/-- R161, failures: `PIX.EMB` fails with CapacityExceeded when `W < 64`, `SH > H`, `SW > W` or `H = 0`, and changes only
STATUS. That the failure comes before the refusal of U2 where `3*H*W` or `3*SH*SW` is above its capacity too is the
model's reading (log 6). -/
def Obligations.PixEmbRejectsSecretsThatDoNotFit : Prop :=
  ∀ s : State, (s.w.toNat < 64 ∨ s.h.toNat < s.sh.toNat ∨ s.w.toNat < s.sw.toNat ∨ s.h.toNat = 0) →
    exec .pixEmb s = .next { s with status := 1 }

/-- R162, the closed form of `PIX.EMB`, with R161's success conditions and frame: every output byte is the table's, by
whether it is a header byte, a payload byte, both or neither; OUT beyond the image and everything else are unchanged. -/
def Obligations.PixEmbClosedForm : Prop :=
  ∀ (s : State) (cover : List Sample) (secret : List Byte),
    let H := s.h.toNat
    let W := s.w.toNat
    let SH := s.sh.toNat
    let SW := s.sw.toNat
    let d := s.bitDepth
    s.pixcfgLegal → 64 ≤ W → SH ≤ H → SW ≤ W → 0 < H → 3 * H * W ≤ s.cfg.capCar → 3 * SH * SW ≤ s.cfg.capSec →
    s.car.wf → cover.length = 3 * H * W → s.car.holds 0 cover → (∀ v ∈ cover, v.toNat < 2 ^ 8) →
    secret.length = 3 * SH * SW → s.sec.holds 0 secret →
    ∃ t, exec .pixEmb s = .next t ∧ t = { s with out := t.out, status := 0 } ∧
      (∀ y x c, y < H → x < W → c < 3 →
        let cov : Byte := (cover.getD ((y * W + x) * 3 + c) 0).setWidth 8
        let sec : Byte := secret.getD ((y * SW + x) * 3 + c) 0
        let hb : Byte := if (if x < 32 then s.sw.getLsbD (31 - x) else s.sh.getLsbD (63 - x)) then 1 else 0
        let isHeader := y = 0 ∧ x < 64 ∧ c = s.channel
        let isPayload := y < SH ∧ x < SW
        let headerClear : Byte := ~~~(((1 : Byte) <<< (d + 1)) - 1)
        let payloadClear : Byte := ~~~(((1 : Byte) <<< d) - 1)
        t.out.get ((y * W + x) * 3 + c) = some (BitVec.setWidth 16
          (if isHeader ∧ ¬isPayload then (cov &&& headerClear) ||| hb <<< d
          else if isPayload ∧ ¬isHeader then (cov &&& payloadClear) ||| sec >>> (8 - d)
          else if isHeader ∧ isPayload then (cov &&& headerClear) ||| hb <<< d ||| sec >>> (8 - d)
          else cov))) ∧
      ∀ a, 3 * H * W ≤ a → t.out.get a = s.out.get a

/-- R163, success: when bit `d` of the 64 header bytes spells dimensions in range, `PIX.EXT` completes, writes them to
HDR0, HDR1, `SW` and `SH`, and REC byte `(y, x, c)` is the stego byte's low `d` bits shifted to the top; nothing else
changes. -/
def Obligations.PixExtReconstructsTheSecret : Prop :=
  ∀ (s : State) (sw sh : Word),
    let W := s.w.toNat
    let d := s.bitDepth
    s.pixcfgLegal → 64 ≤ W → 1 ≤ s.h.toNat → 3 * s.h.toNat * W ≤ s.cfg.capCar → s.car.wf →
    s.carFits .img (3 * s.h.toNat * W) →
    (∀ k, k < 32 → ∃ v, s.car.get (3 * k + s.channel) = some v ∧ v.getLsbD d = sw.getLsbD (31 - k)) →
    (∀ k, k < 32 → ∃ v, s.car.get (3 * (32 + k) + s.channel) = some v ∧ v.getLsbD d = sh.getLsbD (31 - k)) →
    0 < sw.toNat → 0 < sh.toNat → sw.toNat ≤ W → sh.toNat ≤ s.h.toNat → 3 * sh.toNat * sw.toNat ≤ s.cfg.capSec →
    (∀ y x c, y < sh.toNat → x < sw.toNat → c < 3 → (s.car.get ((y * W + x) * 3 + c)).isSome = true) →
    ∃ t, exec .pixExt s = .next t ∧
      t = { s with hdr0 := sw, hdr1 := sh, sw := sw, sh := sh, recon := t.recon, status := 0 } ∧
      (∀ y x c, y < sh.toNat → x < sw.toNat → c < 3 →
        t.recon.get ((y * sw.toNat + x) * 3 + c) =
          (s.car.get ((y * W + x) * 3 + c)).map fun v => BitVec.ofNat 8 (v.toNat % 2 ^ d * 2 ^ (8 - d))) ∧
      ∀ a, 3 * sh.toNat * sw.toNat ≤ a → t.recon.get a = s.recon.get a

/-- R163, failures: `W < 64` or `H < 1` fails with InvalidHeader and leaves HDR0, HDR1 unchanged; a decoded dimension
that is zero or too large fails with InvalidHeader and HDR0, HDR1 hold the dimensions; nothing else changes. That the
first failure comes before the refusal of U2 where `3*H*W` is above `CAP_CAR` is the model's reading (log 6). -/
def Obligations.PixExtRejectsInvalidHeaders : Prop :=
  (∀ s : State, (s.w.toNat < 64 ∨ s.h.toNat < 1) → exec .pixExt s = .next { s with status := 2 }) ∧
  ∀ (s : State) (sw sh : Word),
    let d := s.bitDepth
    s.pixcfgLegal → 64 ≤ s.w.toNat → 1 ≤ s.h.toNat → 3 * s.h.toNat * s.w.toNat ≤ s.cfg.capCar → s.car.wf →
    s.carFits .img (3 * s.h.toNat * s.w.toNat) →
    (∀ k, k < 32 → ∃ v, s.car.get (3 * k + s.channel) = some v ∧ v.getLsbD d = sw.getLsbD (31 - k)) →
    (∀ k, k < 32 → ∃ v, s.car.get (3 * (32 + k) + s.channel) = some v ∧ v.getLsbD d = sh.getLsbD (31 - k)) →
    (sw.toNat = 0 ∨ sh.toNat = 0 ∨ s.w.toNat < sw.toNat ∨ s.h.toNat < sh.toNat) →
    exec .pixExt s = .next { s with hdr0 := sw, hdr1 := sh, status := 2 }

/-- R164 and R165: after a successful `PIX.EMB` and a copy of OUT to CAR, `PIX.EXT` reads back exactly (SW, SH); when
both are at least 1 it succeeds and every REC byte is the secret byte with all but its top `d` bits cleared, otherwise
it fails with InvalidHeader. -/
def Obligations.ImageInImageRoundTrip : Prop :=
  ∀ s s₁ : State, s.Inv → exec .pixEmb s = .next s₁ → s₁.status = 0 →
    ∃ s₂, exec .pixExt { s₁ with car := s₁.car.overwriteWith s₁.out } = .next s₂ ∧
      s₂.hdr0 = s.sw ∧ s₂.hdr1 = s.sh ∧ s₂.sw = s.sw ∧ s₂.sh = s.sh ∧
      (s₂.status = 0 ↔ 1 ≤ s.sw.toNat ∧ 1 ≤ s.sh.toNat) ∧ (s₂.status ≠ 0 → s₂.status = 2 ∧ s₂.recon = s.recon) ∧
      (s₂.status = 0 → ∀ y x c, y < s.sh.toNat → x < s.sw.toNat → c < 3 →
        s₂.recon.get ((y * s.sw.toNat + x) * 3 + c) =
          (s.sec.get ((y * s.sw.toNat + x) * 3 + c)).map fun b => b &&& ((0xFF : Byte) <<< (8 - s.bitDepth)))

/-! ### The whole machine -/

/-- The machine right after reset meets the invariant, for every admissible value of the parameters (R7), and so does
`State.reset`, whose values of them are the model's choice (log 4). -/
def Obligations.ResetMeetsTheInvariant : Prop :=
  (∀ c : Config, c.wf → (State.resetWith c).Inv) ∧ State.reset.Inv

/-- Every step from a state that meets the invariant gives one that meets it: the spaces stay in canonical form and
within their capacities (R7), `PIXCFG` stays legal (R23), the delimiter stays a text of scalar values that fits its
register file (R24), and STATUS holds only what the block writes (R25, R198). -/
def Obligations.StepKeepsTheInvariant : Prop :=
  ∀ s t : State, s.Inv → step s = .next t → t.Inv

/-- No step changes the machine's parameters (the model's own form of R7; log 4). -/
def Obligations.StepKeepsTheParameters : Prop :=
  ∀ s t : State, step s = .next t → t.cfg = s.cfg

/-- R21's write columns: which command writes which operand register, and that a failing command writes none. -/
def Obligations.OperandRegisterWriteTable : Prop :=
  ∀ (i : Instr) (s t : State), exec i s = .next t →
    t.n = s.n ∧ t.h = s.h ∧ t.w = s.w ∧
    (t.blen ≠ s.blen → i = .txtEnc) ∧ (t.tlen ≠ s.tlen → i = .txtDec ∨ ∃ w, i = .lsbExt w) ∧
    (t.sh ≠ s.sh ∨ t.sw ≠ s.sw → i = .pixExt) ∧
    (¬ t.succeeded → ∀ r, t.operand r = s.operand r)

/-- R28's "written by" column and R58: no command writes CAR or SEC, and each other space is written only by the
commands listed for it, on success. -/
def Obligations.SpaceWriteTable : Prop :=
  ∀ (i : Instr) (s t : State), exec i s = .next t →
    t.car = s.car ∧ t.sec = s.sec ∧
    (t.out ≠ s.out → t.succeeded ∧ (i = .pixEmb ∨ ∃ w, i = .lsbEmb w)) ∧
    (t.recon ≠ s.recon → t.succeeded ∧ i = .pixExt) ∧
    (t.txt ≠ s.txt → t.succeeded ∧ (i = .txtDec ∨ ∃ w, i = .lsbExt w)) ∧
    (t.bit ≠ s.bit → i = .txtEnc)

/-- R192 and R26: a command that fails changes STATUS, with `WARN` 0, and HDR0 and HDR1 where it had read a header, and
nothing else; only `LSB.EXT` and `PIX.EXT` write HDR0, only `PIX.EXT` HDR1. -/
def Obligations.FailureChangesOnlyStatusAndHeaders : Prop :=
  ∀ (i : Instr) (s t : State), exec i s = .next t →
    (¬ t.succeeded → t.warn = false ∧ t = { s with status := t.status, hdr0 := t.hdr0, hdr1 := t.hdr1 }) ∧
    (t.hdr0 ≠ s.hdr0 → i = .pixExt ∨ ∃ w, i = .lsbExt w) ∧ (t.hdr1 ≠ s.hdr1 → i = .pixExt)

/-- R191: which command raises which kind, and exactly when, for every command that completes; the decoded `M`, `SW` and
`SH` are the values of the header bits in CAR. -/
def Obligations.EachCommandRaisesItsKindExactlyWhen : Prop :=
  ∀ (s t : State),
    (exec .cfgDelim s = .next t → t.kindField = if s.cfg.delimMax < s.tlen.toNat then 3 else 0) ∧
    (∀ ch d, ch < 4 → d < 256 → exec (.cfgPix ch d) s = .next t →
      t.kindField = if d < 1 ∨ 4 < d ∨ ch = 3 then 3 else 0) ∧
    (exec .txtEnc s = .next t → t.kindField = 0) ∧
    (exec .txtDec s = .next t → t.kindField = 0) ∧
    (∀ w, exec (.lsbEmb w) s = .next t → t.kindField = if s.n.toNat < s.blen.toNat + 32 then 1 else 0) ∧
    (∀ w, exec (.lsbExt w) s = .next t →
      let m := valMsb ((s.car.front 32).map bit0)
      t.kindField = if s.n.toNat < 32 ∨ m = 0 ∨ s.n.toNat < m + 32 then 2 else 0) ∧
    (exec .pixEmb s = .next t →
      t.kindField =
        if s.w.toNat < 64 ∨ s.h.toNat < s.sh.toNat ∨ s.w.toNat < s.sw.toNat ∨ s.h.toNat = 0 then 1 else 0) ∧
    (exec .pixExt s = .next t →
      let header := (List.range 64).map fun k => headerBit s.bitDepth (sampleByte (s.car.read (3 * k + s.channel)))
      let sw := valMsb (header.take 32)
      let sh := valMsb (header.drop 32)
      t.kindField =
        if s.w.toNat < 64 ∨ s.h.toNat < 1 ∨ sw = 0 ∨ sh = 0 ∨ s.w.toNat < sw ∨ s.h.toNat < sh then 2 else 0) ∧
    (∀ c, (∀ r ∈ opcodeTable, r.selectedBy c = false) → issueCommand c s = .next t → t.kindField = 5)

/-- R194: the warning is set only by `LSB.EXT`, together with `KIND` = 0. -/
def Obligations.WarningOnlyAfterSuccessfulExtract : Prop :=
  ∀ (i : Instr) (s t : State), exec i s = .next t → t.warn = true → t.kindField = 0 ∧ ∃ w, i = .lsbExt w

/-- R193 with 93_implementation_defined.md U1, U2, U3, U8: a command never faults; it completes, or is refused for one
of the reasons the spec gives for that command. `CFG.PIX` always completes, and 16-bit samples are never too wide. -/
def Obligations.CommandsNeverFault : Prop :=
  ∀ (i : Instr) (s : State),
    (∃ t, exec i s = .next t) ∨
      ∃ r, exec i s = .refused r ∧
        match i with
        | .cfgPix _ _ => False
        | .cfgDelim | .txtEnc => r = .overCapacity ∨ r = .unwrittenElement ∨ r = .nonScalarText
        | .txtDec | .lsbEmb .aud | .lsbExt .aud => r = .overCapacity ∨ r = .unwrittenElement
        | .lsbEmb .img | .lsbExt .img | .pixEmb | .pixExt =>
          r = .overCapacity ∨ r = .unwrittenElement ∨ r = .sampleTooWide

/-- R26, R25: no command reads HDR0, HDR1 or STATUS: with other values in them, a command ends the same way, and the
next state differs at most in what HDR0 and HDR1 kept. -/
def Obligations.NothingReadsTheResultRegisters : Prop :=
  ∀ (i : Instr) (s : State) (a b c : Word),
    (∀ t, exec i s = .next t → ∃ t', exec i { s with hdr0 := a, hdr1 := b, status := c } = .next t' ∧
      t' = { t with hdr0 := t'.hdr0, hdr1 := t'.hdr1 } ∧
      (t'.hdr0 = t.hdr0 ∨ (t'.hdr0 = a ∧ t.hdr0 = s.hdr0)) ∧ (t'.hdr1 = t.hdr1 ∨ (t'.hdr1 = b ∧ t.hdr1 = s.hdr1))) ∧
    (∀ r, exec i s = .refused r → exec i { s with hdr0 := a, hdr1 := b, status := c } = .refused r)

/-- R24: delimiter elements at or above `DLEN` are never read by a command. -/
def Obligations.DelimiterElementsBeyondDlenAreNotRead : Prop :=
  ∀ (i : Instr) (s : State) (other : List CodePoint), i ≠ .cfgDelim →
    other.take s.dlen.toNat = s.delim.take s.dlen.toNat →
    (∀ t, exec i s = .next t → exec i { s with delim := other } = .next { t with delim := other }) ∧
    (∀ r, exec i s = .refused r → exec i { s with delim := other } = .refused r)

/-- U3 (10_state.md R28): each command that reads TXT or BIT, `CFG.DELIM`, `TXT.ENC`, `TXT.DEC` and `LSB.EMB`, is refused
when an element it would read holds no value. `TXT.DEC` reads the whole groups of 8 bits only (log 8). -/
def Obligations.ReadingUnwrittenTextOrBitsIsRefused : Prop :=
  ∀ (s : State) (i : Nat),
    (i < s.tlen.toNat → s.tlen.toNat ≤ s.cfg.capTxt → s.txt.get i = none →
      exec .txtEnc s = .refused .unwrittenElement ∧
      (s.tlen.toNat ≤ s.cfg.delimMax → exec .cfgDelim s = .refused .unwrittenElement)) ∧
    (i < 8 * (s.blen.toNat / 8) → s.blen.toNat ≤ s.cfg.capBit → s.bit.get i = none →
      exec .txtDec s = .refused .unwrittenElement) ∧
    (∀ w, i < s.blen.toNat → s.blen.toNat + 32 ≤ s.n.toNat → s.n.toNat ≤ s.cfg.capCar → s.blen.toNat ≤ s.cfg.capBit →
      s.bit.get i = none → exec (.lsbEmb w) s = .refused .unwrittenElement)

/-- R57: whatever an embedding command writes, it changes only the designated bits: bit 0 for `LSB.EMB`; for `PIX.EMB`
bits `d:0` of a header byte, bits `d-1:0` of a payload byte, nothing of any other. -/
def Obligations.EmbeddingPreservesTheOtherBits : Prop :=
  ∀ s t : State, s.car.wf → s.pixcfgLegal → t.succeeded →
    (∀ w, exec (.lsbEmb w) s = .next t → ∀ j, j < s.n.toNat → ∃ c o, s.car.get j = some c ∧ t.out.get j = some o ∧
      ∀ k, 1 ≤ k ∨ 32 + s.blen.toNat ≤ j → o.getLsbD k = c.getLsbD k) ∧
    (exec .pixEmb s = .next t → ∀ y x ch, y < s.h.toNat → x < s.w.toNat → ch < 3 →
      ∃ c o, s.car.get ((y * s.w.toNat + x) * 3 + ch) = some c ∧ t.out.get ((y * s.w.toNat + x) * 3 + ch) = some o ∧
        ∀ k, (s.bitDepth < k ∨ (s.bitDepth ≤ k ∧ ¬(y = 0 ∧ x < 64 ∧ ch = s.channel)) ∨
          ¬(y = 0 ∧ x < 64 ∧ ch = s.channel) ∧ ¬(y < s.sh.toNat ∧ x < s.sw.toNat)) → o.getLsbD k = c.getLsbD k)

/-! ### Refusals (93_implementation_defined.md Part 1) -/

/-- U3 for CAR and SEC (10_state.md R28): `LSB.EMB`, `LSB.EXT`, `PIX.EMB` and `PIX.EXT` are refused when a sample or byte
they would read holds no value, header and payload alike. For the two extracting commands the elements read are their
pseudocode's (log 5). -/
def Obligations.ReadingUnwrittenCarrierOrSecretIsRefused : Prop :=
  ∀ s : State,
    (∀ (w : SampleWidth) (i : Nat), i < s.n.toNat → s.blen.toNat + 32 ≤ s.n.toNat → s.n.toNat ≤ s.cfg.capCar →
      s.blen.toNat ≤ s.cfg.capBit → s.car.get i = none → exec (.lsbEmb w) s = .refused .unwrittenElement) ∧
    (∀ (w : SampleWidth) (i : Nat), i < 32 → 32 ≤ s.n.toNat → s.n.toNat ≤ s.cfg.capCar → s.car.get i = none →
      exec (.lsbExt w) s = .refused .unwrittenElement) ∧
    (∀ (w : SampleWidth) (m : Word) (i : Nat), 32 ≤ i → i < 32 + m.toNat → m.toNat + 32 ≤ s.n.toNat →
      s.n.toNat ≤ s.cfg.capCar → s.car.wf → s.carFits w s.n.toNat → s.spellsLength m → s.car.get i = none →
      exec (.lsbExt w) s = .refused .unwrittenElement) ∧
    (∀ a, s.secretFits → s.imagesWithin →
      ((a < 3 * s.h.toNat * s.w.toNat ∧ s.car.get a = none) ∨ (a < 3 * s.sh.toNat * s.sw.toNat ∧ s.sec.get a = none)) →
      exec .pixEmb s = .refused .unwrittenElement) ∧
    (∀ k, k < 64 → 64 ≤ s.w.toNat → 1 ≤ s.h.toNat → 3 * s.h.toNat * s.w.toNat ≤ s.cfg.capCar →
      s.car.get (3 * k + s.channel) = none → exec .pixExt s = .refused .unwrittenElement) ∧
    (∀ (sw sh : Word) (y x c : Nat), y < sh.toNat → x < sw.toNat → c < 3 → 64 ≤ s.w.toNat →
      sw.toNat ≤ s.w.toNat → sh.toNat ≤ s.h.toNat → 3 * s.h.toNat * s.w.toNat ≤ s.cfg.capCar →
      3 * sh.toNat * sw.toNat ≤ s.cfg.capSec → s.car.wf → s.carFits .img (3 * s.h.toNat * s.w.toNat) →
      s.spellsDimensions sw sh → s.car.get ((y * s.w.toNat + x) * 3 + c) = none →
      exec .pixExt s = .refused .unwrittenElement)

/-- U2 (00_scope.md R7): a command that does not fail on its registers is refused when an operand, or a result, is longer
than its space's capacity. (For the result of `TXT.ENC` see `TxtEncWritesTheBitstream`.) The place of this check in each
command, and that `LSB.EXT`'s result is the truncated text, are the model's reading (log 6). -/
def Obligations.OperandsOverCapacityAreRefused : Prop :=
  ∀ s : State,
    (s.tlen.toNat ≤ s.cfg.delimMax → s.cfg.capTxt < s.tlen.toNat → exec .cfgDelim s = .refused .overCapacity) ∧
    (s.cfg.capTxt < s.tlen.toNat → exec .txtEnc s = .refused .overCapacity) ∧
    (s.cfg.capBit < s.blen.toNat → exec .txtDec s = .refused .overCapacity) ∧
    (s.blen.toNat ≤ s.cfg.capBit → s.bit.holdsAll (8 * (s.blen.toNat / 8)) → s.cfg.capTxt < s.blen.toNat / 8 →
      exec .txtDec s = .refused .overCapacity) ∧
    (∀ w, s.blen.toNat + 32 ≤ s.n.toNat → (s.cfg.capCar < s.n.toNat ∨ s.cfg.capBit < s.blen.toNat) →
      exec (.lsbEmb w) s = .refused .overCapacity) ∧
    (∀ w, 32 ≤ s.n.toNat → s.cfg.capCar < s.n.toNat → exec (.lsbExt w) s = .refused .overCapacity) ∧
    (∀ (w : SampleWidth) (m : Word) (samples : List Sample), 0 < m.toNat → m.toNat + 32 ≤ s.n.toNat →
      s.n.toNat ≤ s.cfg.capCar → s.car.wf → s.carFits w s.n.toNat → s.spellsLength m → samples.length = 32 + m.toNat →
      s.car.holds 0 samples →
      s.cfg.capTxt <
        (truncateAt s.delimiter (bitsToText ((samples.drop 32).map fun v => v.extractLsb' 0 1))).1.length →
      exec (.lsbExt w) s = .refused .overCapacity) ∧
    (s.secretFits → (s.cfg.capCar < 3 * s.h.toNat * s.w.toNat ∨ s.cfg.capSec < 3 * s.sh.toNat * s.sw.toNat) →
      exec .pixEmb s = .refused .overCapacity) ∧
    (64 ≤ s.w.toNat → 1 ≤ s.h.toNat → s.cfg.capCar < 3 * s.h.toNat * s.w.toNat →
      exec .pixExt s = .refused .overCapacity) ∧
    (∀ sw sh : Word, 64 ≤ s.w.toNat → 0 < sw.toNat → 0 < sh.toNat → sw.toNat ≤ s.w.toNat → sh.toNat ≤ s.h.toNat →
      3 * s.h.toNat * s.w.toNat ≤ s.cfg.capCar → s.car.wf → s.carFits .img (3 * s.h.toNat * s.w.toNat) →
      s.spellsDimensions sw sh → s.cfg.capSec < 3 * sh.toNat * sw.toNat → exec .pixExt s = .refused .overCapacity)

/-- U8 (10_state.md R29): one element of CAR`[0 .. N)`, or of the image, above 0xFF is enough for the command that takes
8-bit samples to be refused, once its registers pass and the elements it reads first hold values. That an extracting
command judges elements it does not read is the model's reading (log 7). -/
def Obligations.TooWideSamplesAreRefused : Prop :=
  ∀ (s : State) (j : Nat) (v : Sample), s.car.get j = some v → 2 ^ 8 ≤ v.toNat →
    (j < s.n.toNat → s.n.toNat ≤ s.cfg.capCar →
      (s.blen.toNat + 32 ≤ s.n.toNat → s.blen.toNat ≤ s.cfg.capBit → s.car.holdsAll s.n.toNat →
        s.bit.holdsAll s.blen.toNat → exec (.lsbEmb .img) s = .refused .sampleTooWide) ∧
      (32 ≤ s.n.toNat → s.car.holdsAll 32 → exec (.lsbExt .img) s = .refused .sampleTooWide)) ∧
    (j < 3 * s.h.toNat * s.w.toNat →
      (s.secretFits → s.imagesWithin → s.car.holdsAll (3 * s.h.toNat * s.w.toNat) →
        s.sec.holdsAll (3 * s.sh.toNat * s.sw.toNat) → exec .pixEmb s = .refused .sampleTooWide) ∧
      (64 ≤ s.w.toNat → 1 ≤ s.h.toNat → 3 * s.h.toNat * s.w.toNat ≤ s.cfg.capCar →
        (∀ k, k < 64 → (s.car.get (3 * k + s.channel)).isSome = true) →
        exec .pixExt s = .refused .sampleTooWide))

/-- The other direction of U1, U2, U3 and U8: in a state that meets the invariant a command is refused for a reason only
where that reason is present in what the command is defined on; `CFG.PIX` never is. The elements `LSB.EXT` and `PIX.EXT`
read are their pseudocode's (log 5), and the text that `LSB.EXT` judges against `CAP_TXT` is the truncated one (log 6). -/
def Obligations.RefusedOnlyForItsReason : Prop :=
  ∀ (s : State) (r : Refusal), s.Inv →
    (exec .cfgDelim s = .refused r →
      (r = .overCapacity ∧ s.cfg.capTxt < s.tlen.toNat) ∨
      (r = .unwrittenElement ∧ ∃ q, q < s.tlen.toNat ∧ s.txt.get q = none) ∨
      (r = .nonScalarText ∧ ∃ q v, q < s.tlen.toNat ∧ s.txt.get q = some v ∧ isScalar v = false)) ∧
    (∀ ch d, exec (.cfgPix ch d) s ≠ .refused r) ∧
    (exec .txtEnc s = .refused r →
      (r = .overCapacity ∧
        (s.cfg.capTxt < s.tlen.toNat ∨ 2 ^ 32 ≤ 8 * (utf8s (s.text ++ s.delimiter)).length ∨
          s.cfg.capBit < 8 * (utf8s (s.text ++ s.delimiter)).length)) ∨
      (r = .unwrittenElement ∧ ∃ q, q < s.tlen.toNat ∧ s.txt.get q = none) ∨
      (r = .nonScalarText ∧ ∃ q v, q < s.tlen.toNat ∧ s.txt.get q = some v ∧ isScalar v = false)) ∧
    (exec .txtDec s = .refused r →
      (r = .overCapacity ∧ (s.cfg.capBit < s.blen.toNat ∨ s.cfg.capTxt < s.blen.toNat / 8)) ∨
      (r = .unwrittenElement ∧ ∃ k, k < 8 * (s.blen.toNat / 8) ∧ s.bit.get k = none)) ∧
    (∀ w, exec (.lsbEmb w) s = .refused r →
      (r = .overCapacity ∧ (s.cfg.capCar < s.n.toNat ∨ s.cfg.capBit < s.blen.toNat)) ∨
      (r = .unwrittenElement ∧
        ((∃ j, j < s.n.toNat ∧ s.car.get j = none) ∨ ∃ k, k < s.blen.toNat ∧ s.bit.get k = none)) ∨
      (r = .sampleTooWide ∧ w = .img ∧ ∃ j v, j < s.n.toNat ∧ s.car.get j = some v ∧ 2 ^ 8 ≤ v.toNat)) ∧
    (∀ w, exec (.lsbExt w) s = .refused r → ∃ m, m = valMsb (carrierBits s.car 0 32) ∧
      ((r = .overCapacity ∧
          (s.cfg.capCar < s.n.toNat ∨
            s.cfg.capTxt < (truncateAt s.delimiter (bitsToText (carrierBits s.car 32 m))).1.length)) ∨
        (r = .unwrittenElement ∧ ∃ j, (j < 32 ∨ j < 32 + m) ∧ j < s.n.toNat ∧ s.car.get j = none) ∨
        (r = .sampleTooWide ∧ w = .img ∧ ∃ j v, j < s.n.toNat ∧ s.car.get j = some v ∧ 2 ^ 8 ≤ v.toNat))) ∧
    (exec .pixEmb s = .refused r →
      (r = .overCapacity ∧
        (s.cfg.capCar < 3 * s.h.toNat * s.w.toNat ∨ s.cfg.capSec < 3 * s.sh.toNat * s.sw.toNat)) ∨
      (r = .unwrittenElement ∧
        ((∃ a, a < 3 * s.h.toNat * s.w.toNat ∧ s.car.get a = none) ∨
          ∃ a, a < 3 * s.sh.toNat * s.sw.toNat ∧ s.sec.get a = none)) ∨
      (r = .sampleTooWide ∧ ∃ j v, j < 3 * s.h.toNat * s.w.toNat ∧ s.car.get j = some v ∧ 2 ^ 8 ≤ v.toNat)) ∧
    (exec .pixExt s = .refused r →
      ∃ sw sh, sw = valMsb (s.imageHeader.take 32) ∧ sh = valMsb (s.imageHeader.drop 32) ∧
        ((r = .overCapacity ∧ (s.cfg.capCar < 3 * s.h.toNat * s.w.toNat ∨ s.cfg.capSec < 3 * sh * sw)) ∨
          (r = .unwrittenElement ∧ ∃ y x c, s.car.get ((y * s.w.toNat + x) * 3 + c) = none ∧
            ((y = 0 ∧ x < 64 ∧ c = s.channel) ∨
              (y < sh ∧ x < sw ∧ c < 3 ∧ sh ≤ s.h.toNat ∧ sw ≤ s.w.toNat))) ∨
          (r = .sampleTooWide ∧ ∃ j v, j < 3 * s.h.toNat * s.w.toNat ∧ s.car.get j = some v ∧ 2 ^ 8 ≤ v.toNat)))
end

