-- ==== Sys2Proof/Laws/State.lean ====
section
/-! SUPPORT. What the named updates of `State` do to each field, so that no later proof unfolds one. -/

namespace Sys2Proof.Machine

/-! ### Writing an operand register (10_state.md R20) -/

@[simp] theorem State.setOperand_cfg (s : State) (r : OperandReg) (v : Word) : (s.setOperand r v).cfg = s.cfg := by
  cases r <;> rfl

@[simp] theorem State.setOperand_pixcfg (s : State) (r : OperandReg) (v : Word) : (s.setOperand r v).pixcfg = s.pixcfg := by
  cases r <;> rfl

@[simp] theorem State.setOperand_delim (s : State) (r : OperandReg) (v : Word) : (s.setOperand r v).delim = s.delim := by
  cases r <;> rfl

@[simp] theorem State.setOperand_dlen (s : State) (r : OperandReg) (v : Word) : (s.setOperand r v).dlen = s.dlen := by
  cases r <;> rfl

@[simp] theorem State.setOperand_status (s : State) (r : OperandReg) (v : Word) : (s.setOperand r v).status = s.status := by
  cases r <;> rfl

@[simp] theorem State.setOperand_hdr0 (s : State) (r : OperandReg) (v : Word) : (s.setOperand r v).hdr0 = s.hdr0 := by
  cases r <;> rfl

@[simp] theorem State.setOperand_hdr1 (s : State) (r : OperandReg) (v : Word) : (s.setOperand r v).hdr1 = s.hdr1 := by
  cases r <;> rfl

@[simp] theorem State.setOperand_car (s : State) (r : OperandReg) (v : Word) : (s.setOperand r v).car = s.car := by
  cases r <;> rfl

@[simp] theorem State.setOperand_out (s : State) (r : OperandReg) (v : Word) : (s.setOperand r v).out = s.out := by
  cases r <;> rfl

@[simp] theorem State.setOperand_sec (s : State) (r : OperandReg) (v : Word) : (s.setOperand r v).sec = s.sec := by
  cases r <;> rfl

@[simp] theorem State.setOperand_recon (s : State) (r : OperandReg) (v : Word) : (s.setOperand r v).recon = s.recon := by
  cases r <;> rfl

@[simp] theorem State.setOperand_txt (s : State) (r : OperandReg) (v : Word) : (s.setOperand r v).txt = s.txt := by
  cases r <;> rfl

@[simp] theorem State.setOperand_bit (s : State) (r : OperandReg) (v : Word) : (s.setOperand r v).bit = s.bit := by
  cases r <;> rfl

@[simp] theorem State.setOperand_host (s : State) (r : OperandReg) (v : Word) : (s.setOperand r v).host = s.host := by
  cases r <;> rfl

@[simp] theorem State.operand_setOperand_self (s : State) (r : OperandReg) (v : Word) :
    (s.setOperand r v).operand r = v := by
  cases r <;> rfl

@[simp] theorem State.operand_setOperand_of_ne (s : State) {r r' : OperandReg} (v : Word) (h : r' ≠ r) :
    (s.setOperand r v).operand r' = s.operand r' := by
  cases r <;> cases r' <;> first | rfl | exact absurd rfl h

/-! ### Reset (10_state.md R33) -/

@[simp] theorem State.resetWith_cfg (c : Config) : (State.resetWith c).cfg = c := rfl

@[simp] theorem State.resetWith_n (c : Config) : (State.resetWith c).n = 0 := rfl

@[simp] theorem State.resetWith_h (c : Config) : (State.resetWith c).h = 0 := rfl

@[simp] theorem State.resetWith_w (c : Config) : (State.resetWith c).w = 0 := rfl

@[simp] theorem State.resetWith_sh (c : Config) : (State.resetWith c).sh = 0 := rfl

@[simp] theorem State.resetWith_sw (c : Config) : (State.resetWith c).sw = 0 := rfl

@[simp] theorem State.resetWith_tlen (c : Config) : (State.resetWith c).tlen = 0 := rfl

@[simp] theorem State.resetWith_blen (c : Config) : (State.resetWith c).blen = 0 := rfl

@[simp] theorem State.resetWith_pixcfg (c : Config) : (State.resetWith c).pixcfg = 0x10 := rfl

@[simp] theorem State.resetWith_dlen (c : Config) : (State.resetWith c).dlen = 5 := rfl

@[simp] theorem State.resetWith_status (c : Config) : (State.resetWith c).status = 0 := rfl

@[simp] theorem State.resetWith_hdr0 (c : Config) : (State.resetWith c).hdr0 = 0 := rfl

@[simp] theorem State.resetWith_hdr1 (c : Config) : (State.resetWith c).hdr1 = 0 := rfl

@[simp] theorem State.resetWith_car (c : Config) : (State.resetWith c).car = .empty := rfl

@[simp] theorem State.resetWith_out (c : Config) : (State.resetWith c).out = .empty := rfl

@[simp] theorem State.resetWith_sec (c : Config) : (State.resetWith c).sec = .empty := rfl

@[simp] theorem State.resetWith_recon (c : Config) : (State.resetWith c).recon = .empty := rfl

@[simp] theorem State.resetWith_txt (c : Config) : (State.resetWith c).txt = .empty := rfl

@[simp] theorem State.resetWith_bit (c : Config) : (State.resetWith c).bit = .empty := rfl

@[simp] theorem State.resetWith_host (c : Config) : (State.resetWith c).host = [] := rfl

@[simp] theorem State.resetWith_delim (c : Config) : (State.resetWith c).delim = defaultDelimiter ++ List.replicate (c.delimMax - 5) 0 := rfl

/-! ### The fields of STATUS and PIXCFG (10_state.md R23, R25) -/

@[simp] theorem statusWord_kind (k : Kind) (warn : Bool) :
    (statusWord k warn).extractLsb' 0 3 = (kindCode k).setWidth 3 := by
  cases k <;> cases warn <;> decide

@[simp] theorem statusWord_warn (k : Kind) (warn : Bool) : (statusWord k warn)[3] = warn := by
  cases k <;> cases warn <;> decide

/-- After `STATUS` is written, its `WARN` field is the warning written. -/
theorem State.warn_of_status {s : State} {k : Kind} {warn : Bool} (h : s.status = statusWord k warn) :
    s.warn = warn := by
  rw [State.warn, h]
  cases k <;> cases warn <;> decide

/-- After `STATUS` is written, the command has succeeded exactly when the kind written is `Success`. -/
theorem State.succeeded_of_status {s : State} {k : Kind} {warn : Bool} (h : s.status = statusWord k warn) :
    s.succeeded ↔ k = .success := by
  rw [State.succeeded, State.kindField, h]
  cases k <;> cases warn <;> decide

theorem pixcfgWord_channel : ∀ ch < 3, ∀ d < 5, ((pixcfgWord ch d).extractLsb' 0 2).toNat = ch := by decide

theorem pixcfgWord_bitDepth : ∀ ch < 3, ∀ d < 5, ((pixcfgWord ch d).extractLsb' 2 3).toNat = d := by decide

theorem pixcfgWord_reserved : ∀ ch < 3, ∀ d < 5, (pixcfgWord ch d).extractLsb' 5 27 = 0 := by decide

end Sys2Proof.Machine
end

