-- ==== Sys2Proof/Laws/Space.lean ====
section
/-! SUPPORT. What the operations over spaces do: read after write, untouched elements, and the canonical form. -/

namespace Sys2Proof.Machine

variable {w : Nat}

/-! ### Cells -/

theorem lookupCell_append (xs ys : List (Nat × BitVec w)) (i : Nat) :
    lookupCell (xs ++ ys) i = (lookupCell xs i).or (lookupCell ys i) := by
  induction xs with
  | nil => simp [lookupCell]
  | cons c cs ih => by_cases h : c.1 = i <;> simp [lookupCell, h, ih]

theorem lookupCell_filter (p : Nat → Bool) (xs : List (Nat × BitVec w)) (i : Nat) :
    lookupCell (xs.filter fun c => p c.1) i = if p i then lookupCell xs i else none := by
  induction xs with
  | nil => simp [lookupCell]
  | cons c cs ih =>
    by_cases hi : c.1 = i
    · subst hi
      by_cases hp : p c.1 <;> simp [lookupCell, hp, ih]
    · by_cases hp : p c.1 <;> simp [lookupCell, hp, hi, ih]

theorem lookupCell_cellsFrom (first : Nat) (vals : List (BitVec w)) (i : Nat) :
    lookupCell (cellsFrom first vals) i = if first ≤ i then vals[i - first]? else none := by
  induction vals generalizing first with
  | nil => simp [cellsFrom, lookupCell]
  | cons v vs ih =>
    rcases Nat.lt_trichotomy i first with h | h | h
    · simp [cellsFrom, lookupCell, ih, show ¬ first ≤ i by omega, show ¬ first + 1 ≤ i by omega,
        show ¬ first = i by omega]
    · simp [cellsFrom, lookupCell, h]
    · rw [show i - first = (i - (first + 1)) + 1 by omega] at *
      simp [cellsFrom, lookupCell, ih, show first ≤ i by omega, show first + 1 ≤ i by omega,
        show ¬ first = i by omega]

theorem mem_cellsFrom {first : Nat} {vals : List (BitVec w)} {c : Nat × BitVec w}
    (h : c ∈ cellsFrom first vals) : first ≤ c.1 ∧ c.1 < first + vals.length ∧ c.2 ∈ vals := by
  induction vals generalizing first with
  | nil => simp [cellsFrom] at h
  | cons v vs ih =>
    simp only [cellsFrom, List.mem_cons] at h
    rcases h with rfl | h
    · simp
    · have := ih h
      simp only [List.length_cons, List.mem_cons]
      exact ⟨by omega, by omega, .inr this.2.2⟩

theorem cellsFrom_pairwise (first : Nat) (vals : List (BitVec w)) :
    (cellsFrom first vals).Pairwise (fun p q => p.1 < q.1) := by
  induction vals generalizing first with
  | nil => exact .nil
  | cons v vs ih => exact .cons (fun c hc => by have := mem_cellsFrom hc; simp only; omega) (ih _)

theorem lookupCell_eq_some_mem {xs : List (Nat × BitVec w)} {i : Nat} {v : BitVec w}
    (h : lookupCell xs i = some v) : (i, v) ∈ xs := by
  induction xs with
  | nil => simp [lookupCell] at h
  | cons c cs ih =>
    by_cases hi : c.1 = i
    · simp only [lookupCell, hi, if_true, Option.some.injEq] at h
      exact List.mem_cons.2 (.inl (by rw [← hi, ← h]))
    · simp only [lookupCell, hi, if_false] at h
      exact List.mem_cons_of_mem _ (ih h)

theorem lookupCell_eq_none_of_lt {xs : List (Nat × BitVec w)} {i : Nat} (h : ∀ c ∈ xs, i < c.1) :
    lookupCell xs i = none := by
  induction xs with
  | nil => rfl
  | cons c cs ih =>
    have := h c (by simp)
    simp [lookupCell, show ¬ c.1 = i by omega, ih (fun c hc => h c (by simp [hc]))]

/-! ### One element -/

@[simp] theorem Space.get_empty (i : Nat) : (Space.empty : Space w).get i = none := rfl

/-- In canonical form the listed cells are exactly the elements that hold a value. -/
theorem Space.mem_cells_iff {m : Space w} (h : m.wf) {i : Nat} {v : BitVec w} :
    (i, v) ∈ m.cells ↔ m.get i = some v := by
  refine ⟨fun hm => ?_, lookupCell_eq_some_mem⟩
  obtain ⟨xs⟩ := m
  change xs.Pairwise _ at h
  change (i, v) ∈ xs at hm
  change lookupCell xs i = some v
  induction xs with
  | nil => simp at hm
  | cons c cs ih =>
    rw [List.pairwise_cons] at h
    rcases List.mem_cons.1 hm with rfl | hm
    · simp [lookupCell]
    · have := h.1 _ hm
      simp only [lookupCell, show ¬ c.1 = i by simp only at this; omega, if_false]
      exact ih h.2 hm

/-- The laws of a write: the written elements hold the values, every other element keeps its own. -/
theorem Space.get_store (m : Space w) (first : Nat) (vals : List (BitVec w)) (i : Nat) :
    (m.store first vals).get i =
      if first ≤ i ∧ i < first + vals.length then vals[i - first]? else m.get i := by
  have hlo := lookupCell_filter (fun a => decide (a < first)) m.cells i
  have hhi := lookupCell_filter (fun a => decide (first + vals.length ≤ a)) m.cells i
  simp only [Space.get, Space.store, lookupCell_append, hlo, hhi, lookupCell_cellsFrom, decide_eq_true_eq]
  rcases Nat.lt_or_ge i first with h | h
  · simp [h, show ¬ first ≤ i by omega, show ¬ first + vals.length ≤ i by omega]
  · by_cases h' : i < first + vals.length
    · simp [h, show ¬ i < first by omega, h', show ¬ first + vals.length ≤ i by omega]
    · have : vals[i - first]? = none := List.getElem?_eq_none (by omega)
      simp [show ¬ i < first by omega, h', show first + vals.length ≤ i by omega, this]

theorem Space.get_store_of_mem {m : Space w} {first : Nat} {vals : List (BitVec w)} {i : Nat} (h : i < vals.length) :
    (m.store first vals).get (first + i) = vals[i]? := by
  rw [Space.get_store, if_pos ⟨by omega, by omega⟩, Nat.add_sub_cancel_left]

theorem Space.get_store_of_not_mem {m : Space w} {first : Nat} {vals : List (BitVec w)} {i : Nat}
    (h : i < first ∨ first + vals.length ≤ i) : (m.store first vals).get i = m.get i := by
  rw [Space.get_store, if_neg (by omega)]

theorem Space.store_holds (m : Space w) (first : Nat) (vals : List (BitVec w)) : (m.store first vals).holds first vals :=
  fun _ h => Space.get_store_of_mem h

theorem Space.store_wf {m : Space w} (h : m.wf) (first : Nat) (vals : List (BitVec w)) : (m.store first vals).wf := by
  simp only [Space.wf, Space.store]
  rw [List.pairwise_append, List.pairwise_append]
  refine ⟨⟨h.filter _, cellsFrom_pairwise _ _, ?_⟩, h.filter _, ?_⟩
  · intro a ha b hb
    have := (List.mem_filter.1 ha).2
    have := mem_cellsFrom hb
    simp only [decide_eq_true_eq] at *
    omega
  · intro a ha b hb
    have hb := (List.mem_filter.1 hb).2
    simp only [decide_eq_true_eq] at hb
    rcases List.mem_append.1 ha with ha | ha
    · have := (List.mem_filter.1 ha).2
      simp only [decide_eq_true_eq] at this
      omega
    · have := mem_cellsFrom ha
      omega

theorem Space.store_within {m : Space w} {cap first : Nat} {vals : List (BitVec w)} (h : m.within cap)
    (hv : vals = [] ∨ first + vals.length ≤ cap) : (m.store first vals).within cap := by
  intro c hc
  simp only [Space.store, List.mem_append, List.mem_filter] at hc
  rcases hc with (hc | hc) | hc
  · exact h c hc.1
  · have := mem_cellsFrom hc
    rcases hv with rfl | hv
    · simp [cellsFrom] at hc
    · omega
  · exact h c hc.1

/-- A write of consecutive elements is the writes of single elements one after the other (20_memory.md R64, R65). -/
theorem Space.get_store_cons (m : Space w) (first : Nat) (v : BitVec w) (vs : List (BitVec w)) (i : Nat) :
    (m.store first (v :: vs)).get i = ((m.store first [v]).store (first + 1) vs).get i := by
  simp only [Space.get_store, List.length_cons, List.length_nil]
  rcases Nat.lt_trichotomy i first with h | h | h
  · rw [if_neg (by omega), if_neg (by omega), if_neg (by omega)]
  · subst h
    rw [if_pos (by omega), if_neg (by omega), if_pos (by omega)]
    simp
  · by_cases h' : i < first + (vs.length + 1)
    · rw [if_pos (by omega), if_pos (by omega), show i - first = (i - (first + 1)) + 1 by omega]
      simp
    · rw [if_neg (by omega), if_neg (by omega), if_neg (by omega)]

/-! ### Copying -/

theorem Space.overwriteWith_wf {m : Space w} (h : m.wf) (src : Space w) : (m.overwriteWith src).wf := by
  simp only [Space.overwriteWith]
  induction src.cells generalizing m with
  | nil => exact h
  | cons c cs ih => exact ih (Space.store_wf h _ _)

theorem Space.overwriteWith_within {m src : Space w} {cap : Nat} (h : m.within cap) (hs : src.within cap) :
    (m.overwriteWith src).within cap := by
  obtain ⟨cells⟩ := src
  simp only [Space.overwriteWith, Space.within] at hs ⊢
  induction cells generalizing m with
  | nil => exact h
  | cons c cs ih =>
    have hc := hs c (by simp)
    exact ih (m := m.store c.1 [c.2]) (Space.store_within h (.inr (by simpa using hc)))
      (fun d hd => hs d (by simp [hd]))

/-- After a copy of a canonical space, each element holds the source's value where the source holds one. -/
theorem Space.get_overwriteWith {m src : Space w} (hs : src.wf) (i : Nat) :
    (m.overwriteWith src).get i = (src.get i).or (m.get i) := by
  obtain ⟨cells⟩ := src
  simp only [Space.overwriteWith, Space.wf] at hs ⊢
  change _ = (lookupCell cells i).or _
  induction cells generalizing m with
  | nil => simp [lookupCell]
  | cons c cs ih =>
    rw [List.pairwise_cons] at hs
    rw [List.foldl_cons, ih hs.2, Space.get_store]
    by_cases hi : c.1 = i
    · subst hi
      rw [lookupCell_eq_none_of_lt (fun d hd => hs.1 d hd)]
      simp [lookupCell]
    · simp only [lookupCell, hi, if_false, List.length_cons, List.length_nil]
      rw [if_neg (by omega)]

/-! ### Sequences of elements -/

@[simp] theorem Space.front_length (m : Space w) (n : Nat) : (m.front n).length = n := by simp [Space.front]

theorem Space.read_eq_of_get {m : Space w} {i : Nat} {v : BitVec w} (h : m.get i = some v) : m.read i = v := by
  simp [Space.read, h]

theorem Space.written_iff {m : Space w} {is : List Nat} :
    m.written is = true ↔ ∀ i ∈ is, ∃ v, m.get i = some v := by
  simp [Space.written, List.all_eq_true, Option.isSome_iff_exists]

theorem Space.written_eq_false_iff {m : Space w} {is : List Nat} :
    m.written is = false ↔ ∃ i ∈ is, m.get i = none := by
  simp [Space.written, List.all_eq_false]

theorem Space.written_range_iff {m : Space w} {n : Nat} :
    m.written (List.range n) = true ↔ ∀ i, i < n → ∃ v, m.get i = some v := by
  simp [Space.written_iff]

theorem Space.front_getElem? {m : Space w} {n i : Nat} (hi : i < n) : (m.front n)[i]? = some (m.read i) := by
  simp [Space.front, hi]

/-- Where the first `n` elements all hold values, `front` gives them. -/
theorem Space.front_getElem?_of_written {m : Space w} {n i : Nat} (h : m.written (List.range n) = true) (hi : i < n) :
    (m.front n)[i]? = m.get i := by
  obtain ⟨v, hv⟩ := Space.written_range_iff.1 h i hi
  rw [Space.front_getElem? hi, Space.read_eq_of_get hv, hv]

/-- Elements set up by the host are what a command reads. -/
theorem Space.front_of_holds {m : Space w} {xs : List (BitVec w)} (h : m.holds 0 xs) : m.front xs.length = xs := by
  refine List.ext_getElem? fun i => ?_
  by_cases hi : i < xs.length
  · have := h i hi
    rw [Nat.zero_add] at this
    rw [Space.front_getElem? hi, Space.read, this, List.getElem?_eq_getElem hi]
    rfl
  · rw [List.getElem?_eq_none (by simpa using hi), List.getElem?_eq_none (by omega)]

theorem Space.written_of_holds {m : Space w} {xs : List (BitVec w)} (h : m.holds 0 xs) :
    m.written (List.range xs.length) = true := by
  refine Space.written_range_iff.2 fun i hi => ⟨xs[i], ?_⟩
  have := h i hi
  rwa [Nat.zero_add, List.getElem?_eq_getElem hi] at this

end Sys2Proof.Machine
end

