-- ==== Sys2Proof/Laws/Ops.lean ====
section
/-! SUPPORT. One lemma for each shared operation that says once everything it can do: how a command ends, what the
premises of a command are, and the sizes of what it produces. -/

namespace Sys2Proof.Machine

/-! ### How a command ends -/

@[simp] theorem raise_eq_next {k : Kind} {s t : State} :
    raise k s = .next t ↔ t = { s with status := statusWord k false } := by
  simp [raise, eq_comm]

@[simp] theorem raise_ne_refused (k : Kind) (s : State) (r : Refusal) : raise k s ≠ .refused r := by simp [raise]

@[simp] theorem raise_ne_fault (k : Kind) (s : State) (f : Fault) : raise k s ≠ .fault f := by simp [raise]

@[simp] theorem succeed_eq_next {warn : Bool} {s t : State} :
    succeed warn s = .next t ↔ t = { s with status := statusWord .success warn } := by
  simp [succeed, eq_comm]

@[simp] theorem succeed_ne_refused (warn : Bool) (s : State) (r : Refusal) : succeed warn s ≠ .refused r := by
  simp [succeed]

@[simp] theorem succeed_ne_fault (warn : Bool) (s : State) (f : Fault) : succeed warn s ≠ .fault f := by simp [succeed]

@[simp] theorem require_eq_next {ok : Bool} {r : Refusal} {go : Result} {t : State} :
    require ok r go = .next t ↔ ok = true ∧ go = .next t := by
  cases ok <;> simp [require]

@[simp] theorem require_eq_fault {ok : Bool} {r : Refusal} {go : Result} {f : Fault} :
    require ok r go = .fault f ↔ ok = true ∧ go = .fault f := by
  cases ok <;> simp [require]

theorem require_eq_refused {ok : Bool} {r r' : Refusal} {go : Result} :
    require ok r go = .refused r' ↔ (ok = false ∧ r = r') ∨ (ok = true ∧ go = .refused r') := by
  cases ok <;> simp [require]

@[simp] theorem require_true (r : Refusal) (go : Result) : require true r go = go := rfl

@[simp] theorem require_false (r : Refusal) (go : Result) : require false r go = .refused r := rfl

@[simp] theorem hostAccess_eq_next {first count cap : Nat} {go : Result} {t : State} :
    hostAccess first count cap go = .next t ↔ (count = 0 ∨ first + count ≤ cap) ∧ go = .next t := by
  by_cases h : count = 0 ∨ first + count ≤ cap <;> simp [hostAccess, h]

/-! ### Bits and text -/

@[simp] theorem bitsMsb_length (v n : Nat) : (bitsMsb v n).length = n := by simp [bitsMsb]

theorem valMsb_lt (b : List Bit) : valMsb b < 2 ^ b.length := by
  induction b with
  | nil => simp [valMsb]
  | cons x xs ih =>
    have hx : x.toNat ≤ 1 := by have := x.isLt; omega
    calc valMsb (x :: xs) < x.toNat * 2 ^ xs.length + 2 ^ xs.length := by simp only [valMsb]; omega
      _ ≤ 1 * 2 ^ xs.length + 2 ^ xs.length := by gcongr
      _ = 2 ^ (x :: xs).length := by rw [List.length_cons, Nat.pow_succ]; omega

@[simp] theorem bytesToBits_length (bs : List Byte) : (bytesToBits bs).length = 8 * bs.length := by
  induction bs with
  | nil => rfl
  | cons b bs ih =>
    simp only [bytesToBits, List.flatMap_cons, List.length_append, bitsMsb_length, List.length_cons] at ih ⊢
    omega

@[simp] theorem bitsToText_length (b : List Bit) : (bitsToText b).length = b.length / 8 := by simp [bitsToText]

theorem truncateAt_length_le (dl t : List CodePoint) : (truncateAt dl t).1.length ≤ t.length := by
  unfold truncateAt
  split <;> simp

@[simp] theorem State.text_length (s : State) : s.text.length = s.tlen.toNat := by simp [State.text]

@[simp] theorem State.encodedText_length (s : State) :
    s.encodedText.length = 8 * (utf8s (s.text ++ s.delimiter)).length := by
  simp [State.encodedText]

/-! ### Carriers -/

@[simp] theorem embedBits_length (bits : List Bit) (vs : List Sample) : (embedBits bits vs).length = vs.length := by
  induction vs generalizing bits with
  | nil => cases bits <;> rfl
  | cons v vs ih => cases bits <;> simp [embedBits, ih]

/-- Sample `j` of the embedded carrier: bit 0 is the `j`-th bit where there is one, else the sample is unchanged. -/
theorem embedBits_getElem? (bits : List Bit) (vs : List Sample) (j : Nat) :
    (embedBits bits vs)[j]? = (vs[j]?).map fun v => match bits[j]? with
      | some b => setBit0 v b
      | none => v := by
  induction vs generalizing bits j with
  | nil => cases bits <;> simp [embedBits]
  | cons v vs ih =>
    cases bits with
    | nil => cases h : (v :: vs)[j]? <;> simp [embedBits, h]
    | cons b bs => cases j <;> simp [embedBits, ih]

@[simp] theorem carrierBits_length (car : Space 16) (first count : Nat) : (carrierBits car first count).length = count := by
  simp [carrierBits]

theorem setBit0_getLsbD_zero (v : Sample) (b : Bit) : (setBit0 v b).getLsbD 0 = b.getLsbD 0 := by
  simp [setBit0]

theorem setBit0_getLsbD_succ (v : Sample) (b : Bit) (k : Nat) (h : 1 ≤ k) :
    (setBit0 v b).getLsbD k = v.getLsbD k := by
  have h1 : b.getLsbD k = false := BitVec.getLsbD_of_ge _ _ h
  rcases Nat.lt_or_ge k 16 with hk | hk
  · simp only [setBit0, BitVec.getLsbD_or, BitVec.getLsbD_and, BitVec.getLsbD_not,
      BitVec.getLsbD_setWidth, h1, hk]
    simp [show k ≠ 0 by omega]
  · simp [BitVec.getLsbD_of_ge _ _ hk]

/-- U8's premise on the cells is the premise on the elements, for a space in canonical form. -/
theorem samplesFit_iff {w : SampleWidth} {car : Space 16} (h : car.wf) {n : Nat} :
    samplesFit w car n = true ↔ ∀ i, i < n → ∀ v, car.get i = some v → w = .img → v.toNat < 2 ^ 8 := by
  simp only [samplesFit, List.all_eq_true, Bool.or_eq_true, decide_eq_true_eq]
  constructor
  · rintro hf i hi v hv rfl
    have := hf (i, v) ((Space.mem_cells_iff h).2 hv)
    simp only [fitsWidth, decide_eq_true_eq] at this
    omega
  · rintro hf ⟨i, v⟩ hc
    rcases Nat.lt_or_ge i n with hi | hi
    · have := hf i hi v ((Space.mem_cells_iff h).1 hc)
      cases w with
      | img => exact .inr (by simpa [fitsWidth] using this rfl)
      | aud => exact .inr rfl
    · exact .inl hi

theorem samplesFit_eq_false_iff {w : SampleWidth} {car : Space 16} (h : car.wf) {n : Nat} :
    samplesFit w car n = false ↔ w = .img ∧ ∃ i, i < n ∧ ∃ v, car.get i = some v ∧ 2 ^ 8 ≤ v.toNat := by
  rw [← Bool.not_eq_true, samplesFit_iff h]
  cases w <;> simp

/-- One listed element too wide is enough for U8, whatever else the space lists. -/
theorem samplesFit_eq_false_of_get {car : Space 16} {n i : Nat} {v : Sample} (hi : i < n) (hv : car.get i = some v)
    (h : 2 ^ 8 ≤ v.toNat) : samplesFit .img car n = false := by
  refine List.all_eq_false.2 ⟨(i, v), lookupCell_eq_some_mem hv, ?_⟩
  simpa [fitsWidth, hi] using h

/-! ### Pixels -/

theorem mem_pixels {height width : Nat} {p : Nat × Nat × Nat} :
    p ∈ pixels height width ↔ p.1 < height ∧ p.2.1 < width ∧ p.2.2 < 3 := by
  obtain ⟨y, x, c⟩ := p
  simp [pixels]

/-- `idx` is one-to-one on the coordinates of an image (20_memory.md R52). -/
theorem pixelIndex_inj {width y x c y' x' c' : Nat} (hx : x < width) (hc : c < 3) (hx' : x' < width) (hc' : c' < 3)
    (h : pixelIndex width y x c = pixelIndex width y' x' c') : y = y' ∧ x = x' ∧ c = c' := by
  unfold pixelIndex at h
  have hcc : c = c' := by omega
  have hq : y * width + x = y' * width + x' := by omega
  have hxx : x = x' := by
    have := congrArg (· % width) hq
    simpa [Nat.mul_add_mod, Nat.mod_eq_of_lt hx, Nat.mod_eq_of_lt hx', Nat.mul_comm] using this
  refine ⟨?_, hxx, hcc⟩
  have hm : y * width = y' * width := by omega
  exact Nat.eq_of_mul_eq_mul_right (by omega) hm

theorem pixelIndex_lt {height width y x c : Nat} (hy : y < height) (hx : x < width) (hc : c < 3) :
    pixelIndex width y x c < 3 * height * width := by
  have : (y + 1) * width ≤ height * width := Nat.mul_le_mul_right _ hy
  unfold pixelIndex
  nlinarith

@[simp] theorem pixels_length (height width : Nat) : (pixels height width).length = 3 * height * width := by
  simp [pixels, List.length_flatMap]
  ring

theorem foldl_modify_length {α β : Type} (ps : List β) (at_ : β → Nat) (f : β → α → α) (work : List α) :
    (ps.foldl (fun wk p => wk.modify (at_ p) (f p)) work).length = work.length := by
  induction ps generalizing work with
  | nil => rfl
  | cons p ps ih => simp [ih]

@[simp] theorem embedHeader_length (width ch d : Nat) (dh : List Bit) (work : List Byte) :
    (embedHeader width ch d dh work).length = work.length := by
  unfold embedHeader
  exact foldl_modify_length (List.range 64) (fun k => pixelIndex width 0 k ch) (fun k => headerByte d (dh.getD k 0)) work

@[simp] theorem embedPayload_length (width d sh sw : Nat) (sec : Space 8) (work : List Byte) :
    (embedPayload width d sh sw sec work).length = work.length := by
  unfold embedPayload
  exact foldl_modify_length (pixels sh sw) (fun p => pixelIndex width p.1 p.2.1 p.2.2)
    (fun p => payloadByte d (sec.read (pixelIndex sw p.1 p.2.1 p.2.2))) work

@[simp] theorem State.stegoImage_length (s : State) : s.stegoImage.length = 3 * s.h.toNat * s.w.toNat := by
  simp [State.stegoImage]

@[simp] theorem State.imageHeader_length (s : State) : s.imageHeader.length = 64 := by simp [State.imageHeader]

end Sys2Proof.Machine
end

