-- ==== Sys2Proof/Laws/Exec.lean ====
section
/-! SUPPORT. Two inversion lemmas per meaning: everything a command can do when it answers a next state, and the
conditions under which it is refused, in the order they are judged. No command faults. -/

namespace Sys2Proof.Machine

theorem execCfgDelim_next {s t : State} : execCfgDelim s = .next t ↔
    (s.cfg.delimMax < s.tlen.toNat ∧ t = { s with status := statusWord .configurationError false }) ∨
    (s.tlen.toNat ≤ s.cfg.delimMax ∧ s.tlen.toNat ≤ s.cfg.capTxt ∧ s.txt.written (List.range s.tlen.toNat) = true ∧
      s.text.all isScalar = true ∧
      t = { s with
        delim := s.text ++ s.delim.drop s.tlen.toNat
        dlen := s.tlen
        status := statusWord .success false }) := by
  unfold execCfgDelim
  split
  · rename_i h
    simp [h, Nat.not_le.2 h]
  · rename_i h
    simp [h, Nat.not_lt.1 h]

theorem execCfgPix_next {ch d : Nat} {s t : State} : execCfgPix ch d s = .next t ↔
    ((d < 1 ∨ 4 < d ∨ 2 < ch) ∧ t = { s with status := statusWord .configurationError false }) ∨
    (1 ≤ d ∧ d ≤ 4 ∧ ch ≤ 2 ∧ t = { s with pixcfg := pixcfgWord ch d, status := statusWord .success false }) := by
  unfold execCfgPix
  by_cases hd : d < 1 ∨ 4 < d
  · rw [if_pos hd, raise_eq_next]
    exact ⟨fun ht => .inl ⟨by omega, ht⟩, fun hc => hc.elim (·.2) fun hc => by omega⟩
  · rw [if_neg hd]
    by_cases hch : 2 < ch
    · rw [if_pos hch, raise_eq_next]
      exact ⟨fun ht => .inl ⟨by omega, ht⟩, fun hc => hc.elim (·.2) fun hc => by omega⟩
    · rw [if_neg hch, succeed_eq_next]
      exact ⟨fun ht => .inr ⟨by omega, by omega, by omega, ht⟩, fun hc => hc.elim (fun hc => by omega) (·.2.2.2)⟩

theorem execTxtEnc_next {s t : State} : execTxtEnc s = .next t ↔
    s.tlen.toNat ≤ s.cfg.capTxt ∧ s.txt.written (List.range s.tlen.toNat) = true ∧
    (s.text ++ s.delimiter).all isScalar = true ∧ s.encodedText.length < 2 ^ 32 ∧
    s.encodedText.length ≤ s.cfg.capBit ∧
    t = { s with
      bit := s.bit.store 0 s.encodedText
      blen := BitVec.ofNat 32 s.encodedText.length
      status := statusWord .success false } := by
  simp only [execTxtEnc, require_eq_next, succeed_eq_next, decide_eq_true_eq, Bool.and_eq_true, and_assoc]

theorem execTxtDec_next {s t : State} : execTxtDec s = .next t ↔
    s.blen.toNat ≤ s.cfg.capBit ∧ s.bit.written (List.range (8 * (s.blen.toNat / 8))) = true ∧
    s.blen.toNat / 8 ≤ s.cfg.capTxt ∧
    t = { s with
      txt := s.txt.store 0 (bitsToText (s.bit.front (8 * (s.blen.toNat / 8))))
      tlen := BitVec.ofNat 32 (s.blen.toNat / 8)
      status := statusWord .success false } := by
  simp only [execTxtDec, require_eq_next, succeed_eq_next, decide_eq_true_eq, bitsToText_length, Space.front_length,
    Nat.mul_div_cancel_left _ (show 0 < 8 by decide)]

theorem execLsbEmb_next {w : SampleWidth} {s t : State} : execLsbEmb w s = .next t ↔
    (s.n.toNat < s.blen.toNat + 32 ∧ t = { s with status := statusWord .capacityExceeded false }) ∨
    (s.blen.toNat + 32 ≤ s.n.toNat ∧ s.n.toNat ≤ s.cfg.capCar ∧ s.blen.toNat ≤ s.cfg.capBit ∧
      s.car.written (List.range s.n.toNat) = true ∧ s.bit.written (List.range s.blen.toNat) = true ∧
      samplesFit w s.car s.n.toNat = true ∧
      t = { s with
        out := s.out.store 0 (embedBits (bitsMsb s.blen.toNat 32 ++ s.bit.front s.blen.toNat) (s.car.front s.n.toNat))
        status := statusWord .success false }) := by
  simp only [execLsbEmb]
  split
  · rename_i h
    simp [h, Nat.not_le.2 h]
  · rename_i h
    simp only [require_eq_next, succeed_eq_next, decide_eq_true_eq, Bool.and_eq_true, and_assoc, h, Nat.not_lt.1 h,
      false_and, false_or, true_and]

theorem extractText_next {m : Nat} {s t : State} : extractText m s = .next t ↔
    (¬(0 < m ∧ m + 32 ≤ s.n.toNat) ∧ t = { s with status := statusWord .invalidHeader false }) ∨
    (0 < m ∧ m + 32 ≤ s.n.toNat ∧ s.car.written (List.range' 32 m) = true ∧
      ∃ r warn, truncateAt s.delimiter (bitsToText (carrierBits s.car 32 m)) = (r, warn) ∧ r.length ≤ s.cfg.capTxt ∧
      t = { s with
        txt := s.txt.store 0 r
        tlen := BitVec.ofNat 32 r.length
        status := statusWord .success warn }) := by
  simp only [extractText]
  split
  · rename_i h
    simp only [require_eq_next, succeed_eq_next, decide_eq_true_eq, h, and_self, not_true_eq_false, false_and, false_or,
      true_and]
    refine and_congr_right fun _ => ⟨fun hc => ⟨_, _, rfl, hc.1, hc.2⟩, ?_⟩
    rintro ⟨r, warn, hr, hc⟩
    rw [hr]
    exact hc
  · rename_i h
    rw [raise_eq_next]
    exact ⟨fun ht => .inl ⟨h, ht⟩, fun hc => hc.elim (·.2) fun hc => absurd ⟨hc.1, hc.2.1⟩ h⟩

/-- Either the carrier is too short and nothing is read, or the length is read, written to HDR0, and judged by
`extractText`. -/
theorem execLsbExt_next {w : SampleWidth} {s t : State} : execLsbExt w s = .next t ↔
    (s.n.toNat < 32 ∧ t = { s with status := statusWord .invalidHeader false }) ∨
    (32 ≤ s.n.toNat ∧ s.n.toNat ≤ s.cfg.capCar ∧ s.car.written (List.range 32) = true ∧
      samplesFit w s.car s.n.toNat = true ∧
      ∃ m, m = valMsb (carrierBits s.car 0 32) ∧ m < 2 ^ 32 ∧
        extractText m { s with hdr0 := BitVec.ofNat 32 m } = .next t) := by
  have hm : valMsb (carrierBits s.car 0 32) < 2 ^ 32 := by
    simpa using valMsb_lt (carrierBits s.car 0 32)
  simp only [execLsbExt]
  split
  · rename_i h
    simp [h, Nat.not_le.2 h]
  · rename_i h
    simp only [require_eq_next, decide_eq_true_eq, h, Nat.not_lt.1 h, false_and, false_or, true_and,
      exists_eq_left, hm]

theorem execPixEmb_next {s t : State} : execPixEmb s = .next t ↔
    (¬(64 ≤ s.w.toNat ∧ s.sh.toNat ≤ s.h.toNat ∧ s.sw.toNat ≤ s.w.toNat ∧ 0 < s.h.toNat) ∧
      t = { s with status := statusWord .capacityExceeded false }) ∨
    (64 ≤ s.w.toNat ∧ s.sh.toNat ≤ s.h.toNat ∧ s.sw.toNat ≤ s.w.toNat ∧ 0 < s.h.toNat ∧
      3 * s.h.toNat * s.w.toNat ≤ s.cfg.capCar ∧ 3 * s.sh.toNat * s.sw.toNat ≤ s.cfg.capSec ∧
      s.car.written (List.range (3 * s.h.toNat * s.w.toNat)) = true ∧
      s.sec.written (List.range (3 * s.sh.toNat * s.sw.toNat)) = true ∧
      samplesFit .img s.car (3 * s.h.toNat * s.w.toNat) = true ∧
      t = { s with
        out := s.out.store 0 (s.stegoImage.map (BitVec.setWidth 16))
        status := statusWord .success false }) := by
  simp only [execPixEmb]
  split
  · rename_i h
    have h' : ¬(64 ≤ s.w.toNat ∧ s.sh.toNat ≤ s.h.toNat ∧ s.sw.toNat ≤ s.w.toNat ∧ 0 < s.h.toNat) := by tauto
    rw [raise_eq_next]
    exact ⟨fun ht => .inl ⟨h', ht⟩, fun hc => hc.elim (·.2) fun hc => absurd ⟨hc.1, hc.2.1, hc.2.2.1, hc.2.2.2.1⟩ h'⟩
  · rename_i h
    rw [not_not] at h
    split
    · rename_i h0
      have h' : ¬(64 ≤ s.w.toNat ∧ s.sh.toNat ≤ s.h.toNat ∧ s.sw.toNat ≤ s.w.toNat ∧ 0 < s.h.toNat) := by omega
      rw [raise_eq_next]
      exact ⟨fun ht => .inl ⟨h', ht⟩, fun hc => hc.elim (·.2) fun hc => absurd ⟨hc.1, hc.2.1, hc.2.2.1, hc.2.2.2.1⟩ h'⟩
    · rename_i h0
      have h' : 0 < s.h.toNat := by omega
      simp only [require_eq_next, succeed_eq_next, decide_eq_true_eq, Bool.and_eq_true, and_assoc, h.1, h.2.1, h.2.2,
        h', not_true_eq_false, and_self, false_and, false_or, true_and]

theorem extractImage_next {sw sh : Nat} {s t : State} : extractImage sw sh s = .next t ↔
    (¬(0 < sw ∧ 0 < sh ∧ sw ≤ s.w.toNat ∧ sh ≤ s.h.toNat) ∧
      t = { s with status := statusWord .invalidHeader false }) ∨
    (0 < sw ∧ 0 < sh ∧ sw ≤ s.w.toNat ∧ sh ≤ s.h.toNat ∧ 3 * sh * sw ≤ s.cfg.capSec ∧
      ∃ idxs, idxs = (pixels sh sw).map (fun p => pixelIndex s.w.toNat p.1 p.2.1 p.2.2) ∧ s.car.written idxs = true ∧
      t = { s with
        recon := s.recon.store 0 (idxs.map fun a => reconByte s.bitDepth (sampleByte (s.car.read a)))
        sw := BitVec.ofNat 32 sw
        sh := BitVec.ofNat 32 sh
        status := statusWord .success false }) := by
  simp only [extractImage]
  split
  · rename_i h
    simp only [require_eq_next, succeed_eq_next, decide_eq_true_eq, h, and_self, not_true_eq_false, false_and,
      false_or, true_and, exists_eq_left]
  · rename_i h
    rw [raise_eq_next]
    exact ⟨fun ht => .inl ⟨h, ht⟩, fun hc => hc.elim (·.2) fun hc => absurd ⟨hc.1, hc.2.1, hc.2.2.1, hc.2.2.2.1⟩ h⟩

/-- Either the image is too small and nothing is read, or the dimensions are read, written to HDR0 and HDR1, and judged
by `extractImage`. -/
theorem execPixExt_next {s t : State} : execPixExt s = .next t ↔
    ((s.w.toNat < 64 ∨ s.h.toNat < 1) ∧ t = { s with status := statusWord .invalidHeader false }) ∨
    (64 ≤ s.w.toNat ∧ 1 ≤ s.h.toNat ∧ 3 * s.h.toNat * s.w.toNat ≤ s.cfg.capCar ∧
      s.car.written ((List.range 64).map fun k => pixelIndex s.w.toNat 0 k s.channel) = true ∧
      samplesFit .img s.car (3 * s.h.toNat * s.w.toNat) = true ∧
      ∃ sw sh, sw = valMsb (s.imageHeader.take 32) ∧ sh = valMsb (s.imageHeader.drop 32) ∧ sw < 2 ^ 32 ∧ sh < 2 ^ 32 ∧
        extractImage sw sh { s with hdr0 := BitVec.ofNat 32 sw, hdr1 := BitVec.ofNat 32 sh } = .next t) := by
  have hw : valMsb (s.imageHeader.take 32) < 2 ^ 32 := by simpa using valMsb_lt (s.imageHeader.take 32)
  have hh : valMsb (s.imageHeader.drop 32) < 2 ^ 32 := by simpa using valMsb_lt (s.imageHeader.drop 32)
  simp only [execPixExt]
  split
  · rename_i h
    rw [raise_eq_next]
    exact ⟨fun ht => .inl ⟨h, ht⟩, fun hc => hc.elim (·.2) fun hc => by omega⟩
  · rename_i h
    simp only [require_eq_next, decide_eq_true_eq, h, show 64 ≤ s.w.toNat by omega, show 1 ≤ s.h.toNat by omega,
      false_and, false_or, true_and]
    refine and_congr_right fun _ => and_congr_right fun _ => and_congr_right fun _ => ?_
    generalize valMsb (s.imageHeader.take 32) = sw at *
    generalize valMsb (s.imageHeader.drop 32) = sh at *
    constructor
    · intro he
      exact ⟨sw, sh, rfl, rfl, hw, hh, he⟩
    · rintro ⟨_, _, rfl, rfl, -, -, he⟩
      exact he

/-! ### Refusals (93_implementation_defined.md Part 1) -/

theorem execCfgDelim_refused {s : State} {r : Refusal} : execCfgDelim s = .refused r ↔
    s.tlen.toNat ≤ s.cfg.delimMax ∧
    ((s.cfg.capTxt < s.tlen.toNat ∧ r = .overCapacity) ∨
      (s.tlen.toNat ≤ s.cfg.capTxt ∧
        ((s.txt.written (List.range s.tlen.toNat) = false ∧ r = .unwrittenElement) ∨
          (s.txt.written (List.range s.tlen.toNat) = true ∧ s.text.all isScalar = false ∧ r = .nonScalarText)))) := by
  unfold execCfgDelim
  split
  · rename_i h
    simp [Nat.not_le.2 h]
  · rename_i h
    simp [require_eq_refused, Nat.not_lt.1 h, eq_comm (b := r)]

theorem execCfgPix_ne_refused (ch d : Nat) (s : State) (r : Refusal) : execCfgPix ch d s ≠ .refused r := by
  unfold execCfgPix
  split
  · exact raise_ne_refused _ _ _
  · split
    · exact raise_ne_refused _ _ _
    · exact succeed_ne_refused _ _ _

theorem execTxtEnc_refused {s : State} {r : Refusal} : execTxtEnc s = .refused r ↔
    (s.cfg.capTxt < s.tlen.toNat ∧ r = .overCapacity) ∨
    (s.tlen.toNat ≤ s.cfg.capTxt ∧
      ((s.txt.written (List.range s.tlen.toNat) = false ∧ r = .unwrittenElement) ∨
        (s.txt.written (List.range s.tlen.toNat) = true ∧
          (((s.text ++ s.delimiter).all isScalar = false ∧ r = .nonScalarText) ∨
            ((s.text ++ s.delimiter).all isScalar = true ∧
              ¬(s.encodedText.length < 2 ^ 32 ∧ s.encodedText.length ≤ s.cfg.capBit) ∧ r = .overCapacity))))) := by
  simp only [execTxtEnc, require_eq_refused, succeed_ne_refused, decide_eq_true_eq, decide_eq_false_iff_not,
    ← Bool.decide_and, Nat.not_le, and_false, or_false, eq_comm (b := r)]

theorem execTxtDec_refused {s : State} {r : Refusal} : execTxtDec s = .refused r ↔
    (s.cfg.capBit < s.blen.toNat ∧ r = .overCapacity) ∨
    (s.blen.toNat ≤ s.cfg.capBit ∧
      ((s.bit.written (List.range (8 * (s.blen.toNat / 8))) = false ∧ r = .unwrittenElement) ∨
        (s.bit.written (List.range (8 * (s.blen.toNat / 8))) = true ∧ s.cfg.capTxt < s.blen.toNat / 8 ∧
          r = .overCapacity))) := by
  simp only [execTxtDec, require_eq_refused, succeed_ne_refused, decide_eq_true_eq, decide_eq_false_iff_not,
    Nat.not_le, and_false, or_false, eq_comm (b := r)]

theorem execLsbEmb_refused {w : SampleWidth} {s : State} {r : Refusal} : execLsbEmb w s = .refused r ↔
    s.blen.toNat + 32 ≤ s.n.toNat ∧
    ((¬(s.n.toNat ≤ s.cfg.capCar ∧ s.blen.toNat ≤ s.cfg.capBit) ∧ r = .overCapacity) ∨
      ((s.n.toNat ≤ s.cfg.capCar ∧ s.blen.toNat ≤ s.cfg.capBit) ∧
        (((s.car.written (List.range s.n.toNat) = false ∨ s.bit.written (List.range s.blen.toNat) = false) ∧
            r = .unwrittenElement) ∨
          ((s.car.written (List.range s.n.toNat) = true ∧ s.bit.written (List.range s.blen.toNat) = true) ∧
            samplesFit w s.car s.n.toNat = false ∧ r = .sampleTooWide)))) := by
  simp only [execLsbEmb]
  split
  · rename_i h
    simp [Nat.not_le.2 h]
  · rename_i h
    simp only [require_eq_refused, succeed_ne_refused, ← Bool.decide_and, decide_eq_true_eq, decide_eq_false_iff_not,
      Bool.and_eq_true, Bool.and_eq_false_iff, and_false, or_false, Nat.not_lt.1 h, true_and, eq_comm (b := r)]

theorem extractText_refused {m : Nat} {s : State} {r : Refusal} : extractText m s = .refused r ↔
    (0 < m ∧ m + 32 ≤ s.n.toNat) ∧
    ((s.car.written (List.range' 32 m) = false ∧ r = .unwrittenElement) ∨
      (s.car.written (List.range' 32 m) = true ∧
        s.cfg.capTxt < (truncateAt s.delimiter (bitsToText (carrierBits s.car 32 m))).1.length ∧
        r = .overCapacity)) := by
  simp only [extractText]
  split
  · rename_i h
    simp only [require_eq_refused, succeed_ne_refused, decide_eq_true_eq, decide_eq_false_iff_not, Nat.not_le,
      and_false, or_false, h, and_self, true_and, eq_comm (b := r)]
  · rename_i h
    simp [h]

/-- As `extractText_refused`, for the state in which `LSB.EXT` has written `HDR0`, which nothing here reads. -/
theorem extractText_with_hdr0_refused {m : Nat} {v : Word} {s : State} {r : Refusal} :
    extractText m { s with hdr0 := v } = .refused r ↔
      (0 < m ∧ m + 32 ≤ s.n.toNat) ∧
      ((s.car.written (List.range' 32 m) = false ∧ r = .unwrittenElement) ∨
        (s.car.written (List.range' 32 m) = true ∧
          s.cfg.capTxt < (truncateAt s.delimiter (bitsToText (carrierBits s.car 32 m))).1.length ∧
          r = .overCapacity)) :=
  extractText_refused

theorem execLsbExt_refused {w : SampleWidth} {s : State} {r : Refusal} : execLsbExt w s = .refused r ↔
    32 ≤ s.n.toNat ∧
    ((s.cfg.capCar < s.n.toNat ∧ r = .overCapacity) ∨
      (s.n.toNat ≤ s.cfg.capCar ∧
        ((s.car.written (List.range 32) = false ∧ r = .unwrittenElement) ∨
          (s.car.written (List.range 32) = true ∧
            ((samplesFit w s.car s.n.toNat = false ∧ r = .sampleTooWide) ∨
              (samplesFit w s.car s.n.toNat = true ∧ ∃ m, m = valMsb (carrierBits s.car 0 32) ∧
                (0 < m ∧ m + 32 ≤ s.n.toNat) ∧
                ((s.car.written (List.range' 32 m) = false ∧ r = .unwrittenElement) ∨
                  (s.car.written (List.range' 32 m) = true ∧
                    s.cfg.capTxt < (truncateAt s.delimiter (bitsToText (carrierBits s.car 32 m))).1.length ∧
                    r = .overCapacity)))))))) := by
  simp only [execLsbExt]
  split
  · rename_i h
    simp [Nat.not_le.2 h]
  · rename_i h
    simp only [require_eq_refused, extractText_with_hdr0_refused, decide_eq_true_eq, decide_eq_false_iff_not, Nat.not_le, Nat.not_lt.1 h, true_and, exists_eq_left, eq_comm (b := r)]

theorem execPixEmb_refused {s : State} {r : Refusal} : execPixEmb s = .refused r ↔
    (64 ≤ s.w.toNat ∧ s.sh.toNat ≤ s.h.toNat ∧ s.sw.toNat ≤ s.w.toNat ∧ 0 < s.h.toNat) ∧
    ((¬(3 * s.h.toNat * s.w.toNat ≤ s.cfg.capCar ∧ 3 * s.sh.toNat * s.sw.toNat ≤ s.cfg.capSec) ∧ r = .overCapacity) ∨
      ((3 * s.h.toNat * s.w.toNat ≤ s.cfg.capCar ∧ 3 * s.sh.toNat * s.sw.toNat ≤ s.cfg.capSec) ∧
        (((s.car.written (List.range (3 * s.h.toNat * s.w.toNat)) = false ∨
              s.sec.written (List.range (3 * s.sh.toNat * s.sw.toNat)) = false) ∧ r = .unwrittenElement) ∨
          ((s.car.written (List.range (3 * s.h.toNat * s.w.toNat)) = true ∧
              s.sec.written (List.range (3 * s.sh.toNat * s.sw.toNat)) = true) ∧
            samplesFit .img s.car (3 * s.h.toNat * s.w.toNat) = false ∧ r = .sampleTooWide)))) := by
  simp only [execPixEmb]
  split
  · rename_i h
    simp only [raise_ne_refused, false_iff]
    exact fun hc => h ⟨hc.1.1, hc.1.2.1, hc.1.2.2.1⟩
  · rename_i h
    split
    · rename_i h0
      simp only [raise_ne_refused, false_iff]
      omega
    · rename_i h0
      simp only [require_eq_refused, succeed_ne_refused, ← Bool.decide_and, decide_eq_true_eq, decide_eq_false_iff_not,
        Bool.and_eq_true, Bool.and_eq_false_iff, and_false, or_false, not_not.1 h, Nat.pos_of_ne_zero h0, and_self,
        true_and, eq_comm (b := r)]

theorem extractImage_refused {sw sh : Nat} {s : State} {r : Refusal} : extractImage sw sh s = .refused r ↔
    (0 < sw ∧ 0 < sh ∧ sw ≤ s.w.toNat ∧ sh ≤ s.h.toNat) ∧
    ((s.cfg.capSec < 3 * sh * sw ∧ r = .overCapacity) ∨
      (3 * sh * sw ≤ s.cfg.capSec ∧
        s.car.written ((pixels sh sw).map fun p => pixelIndex s.w.toNat p.1 p.2.1 p.2.2) = false ∧
        r = .unwrittenElement)) := by
  simp only [extractImage]
  split
  · rename_i h
    simp only [require_eq_refused, succeed_ne_refused, decide_eq_true_eq, decide_eq_false_iff_not, Nat.not_le,
      and_false, or_false, h, and_self, true_and, eq_comm (b := r)]
  · rename_i h
    simp [h]

/-- As `extractImage_refused`, for the state in which `PIX.EXT` has written `HDR0` and `HDR1`. -/
theorem extractImage_with_hdrs_refused {sw sh : Nat} {v v' : Word} {s : State} {r : Refusal} :
    extractImage sw sh { s with hdr0 := v, hdr1 := v' } = .refused r ↔
      (0 < sw ∧ 0 < sh ∧ sw ≤ s.w.toNat ∧ sh ≤ s.h.toNat) ∧
      ((s.cfg.capSec < 3 * sh * sw ∧ r = .overCapacity) ∨
        (3 * sh * sw ≤ s.cfg.capSec ∧
          s.car.written ((pixels sh sw).map fun p => pixelIndex s.w.toNat p.1 p.2.1 p.2.2) = false ∧
          r = .unwrittenElement)) :=
  extractImage_refused

theorem execPixExt_refused {s : State} {r : Refusal} : execPixExt s = .refused r ↔
    (64 ≤ s.w.toNat ∧ 1 ≤ s.h.toNat) ∧
    ((s.cfg.capCar < 3 * s.h.toNat * s.w.toNat ∧ r = .overCapacity) ∨
      (3 * s.h.toNat * s.w.toNat ≤ s.cfg.capCar ∧
        ((s.car.written ((List.range 64).map fun k => pixelIndex s.w.toNat 0 k s.channel) = false ∧
            r = .unwrittenElement) ∨
          (s.car.written ((List.range 64).map fun k => pixelIndex s.w.toNat 0 k s.channel) = true ∧
            ((samplesFit .img s.car (3 * s.h.toNat * s.w.toNat) = false ∧ r = .sampleTooWide) ∨
              (samplesFit .img s.car (3 * s.h.toNat * s.w.toNat) = true ∧
                ∃ sw sh, sw = valMsb (s.imageHeader.take 32) ∧ sh = valMsb (s.imageHeader.drop 32) ∧
                  (0 < sw ∧ 0 < sh ∧ sw ≤ s.w.toNat ∧ sh ≤ s.h.toNat) ∧
                  ((s.cfg.capSec < 3 * sh * sw ∧ r = .overCapacity) ∨
                    (3 * sh * sw ≤ s.cfg.capSec ∧
                      s.car.written ((pixels sh sw).map fun p => pixelIndex s.w.toNat p.1 p.2.1 p.2.2) = false ∧
                      r = .unwrittenElement)))))))) := by
  simp only [execPixExt]
  split
  · rename_i h
    simp only [raise_ne_refused, false_iff]
    omega
  · rename_i h
    simp only [require_eq_refused, extractImage_with_hdrs_refused, decide_eq_true_eq, decide_eq_false_iff_not, Nat.not_le,
      show 64 ≤ s.w.toNat ∧ 1 ≤ s.h.toNat by omega, and_self, true_and, exists_and_left, exists_eq_left,
      eq_comm (b := r)]

end Sys2Proof.Machine
end

