-- ==== Sys2Proof/Laws/Codec.lean ====
section
/-! SUPPORT. One element-by-element lemma for each function of the three codecs: bit serialisation, text conversion,
and the two embedding steps of `PIX.EMB`. -/

namespace Sys2Proof.Machine

/-! ### Bits (00_scope.md R10, 20_memory.md R54) -/

theorem bitsMsb_getElem? {v n i : Nat} (h : i < n) :
    (bitsMsb v n)[i]? = some (BitVec.ofNat 1 (v >>> (n - 1 - i))) := by
  simp [bitsMsb, h]

theorem ofNat_one_eq_ofBool (v k : Nat) : BitVec.ofNat 1 (v >>> k) = BitVec.ofBool (v.testBit k) := by
  apply BitVec.eq_of_toNat_eq
  rw [BitVec.toNat_ofNat, BitVec.toNat_ofBool, Nat.testBit_eq_decide_div_mod_eq, Nat.shiftRight_eq_div_pow]
  have : v / 2 ^ k % 2 < 2 := Nat.mod_lt _ (by decide)
  by_cases h : v / 2 ^ k % 2 = 1
  · simp [h]
  · have h0 : v / 2 ^ k % 2 = 0 := by omega
    simp [h0]

/-- Position `i` of a register's serialisation is its bit `31 - i` (R81, R83). -/
theorem bitsMsb_word_getElem? (m : Word) {i : Nat} (h : i < 32) :
    (bitsMsb m.toNat 32)[i]? = some (BitVec.ofBool (m.getLsbD (31 - i))) := by
  rw [bitsMsb_getElem? h, ofNat_one_eq_ofBool, BitVec.testBit_toNat]

/-- A byte's 8 bits (R80): position `r` is bit `7 - r`. -/
theorem bitsMsb_byte_getElem? (b : Byte) {r : Nat} (h : r < 8) :
    (bitsMsb b.toNat 8)[r]? = some (b.extractLsb' (7 - r) 1) := by
  rw [bitsMsb_getElem? h]
  rfl

theorem bytesToBits_getElem? (bs : List Byte) (q : Nat) {r : Nat} (h : r < 8) :
    (bytesToBits bs)[8 * q + r]? = (bs[q]?).map fun b => b.extractLsb' (7 - r) 1 := by
  induction bs generalizing q with
  | nil => simp [bytesToBits]
  | cons b bs ih =>
    have hcons : bytesToBits (b :: bs) = bitsMsb b.toNat 8 ++ bytesToBits bs := by simp [bytesToBits]
    rw [hcons]
    cases q with
    | zero =>
      rw [List.getElem?_append_left (by simpa using h), Nat.mul_zero, Nat.zero_add, bitsMsb_byte_getElem? b h]
      rfl
    | succ q =>
      rw [List.getElem?_append_right (by simp; omega), bitsMsb_length, show 8 * (q + 1) + r - 8 = 8 * q + r by omega, ih]
      rfl

theorem bitsToText_getElem? (b : List Bit) {q : Nat} (h : q < b.length / 8) :
    (bitsToText b)[q]? = some (BitVec.ofNat 21 (valMsb ((b.drop (8 * q)).take 8))) := by
  simp [bitsToText, h]

/-- Horner's step of `val_msb`: bit `k` of the value is the bit at position `len - 1 - k`. -/
theorem testBit_valMsb (b : List Bit) {i : Nat} (h : i < b.length) :
    (valMsb b).testBit (b.length - 1 - i) = (b.getD i 0).getLsbD 0 := by
  induction b generalizing i with
  | nil => simp at h
  | cons x xs ih =>
    have hlt := valMsb_lt xs
    simp only [valMsb, List.length_cons]
    rw [Nat.mul_comm, Nat.testBit_two_pow_mul_add _ hlt]
    cases i with
    | zero =>
      rw [if_neg (by omega), show xs.length + 1 - 1 - 0 - xs.length = 0 by omega, BitVec.testBit_toNat]
      rfl
    | succ i =>
      have hi : i < xs.length := by simpa using h
      rw [if_pos (by omega), show xs.length + 1 - 1 - (i + 1) = xs.length - 1 - i by omega, ih hi]
      rfl

/-- 32 bits that spell a word have its value. -/
theorem valMsb_eq_of_bits {b : List Bit} {m : Word} (hb : b.length = 32)
    (h : ∀ i, i < 32 → (b.getD i 0).getLsbD 0 = m.getLsbD (31 - i)) : valMsb b = m.toNat := by
  refine Nat.eq_of_testBit_eq fun k => ?_
  rcases Nat.lt_or_ge k 32 with hk | hk
  · have := testBit_valMsb b (i := 31 - k) (by omega)
    rw [hb, show 32 - 1 - (31 - k) = k by omega] at this
    rw [this, h _ (by omega), show 31 - (31 - k) = k by omega, BitVec.testBit_toNat]
  · have hv : valMsb b < 2 ^ k :=
      lt_of_lt_of_le (hb ▸ valMsb_lt b) (Nat.pow_le_pow_right (by decide) hk)
    have hm : m.toNat < 2 ^ k := lt_of_lt_of_le m.isLt (Nat.pow_le_pow_right (by decide) hk)
    rw [Nat.testBit_lt_two_pow hv, Nat.testBit_lt_two_pow hm]

theorem carrierBits_getElem? (car : Space 16) (first : Nat) {i count : Nat} (h : i < count) :
    (carrierBits car first count)[i]? = some (bit0 (car.read (first + i))) := by
  simp [carrierBits, h]

/-! ### Read-modify-write loops -/

variable {α β : Type} {at_ : β → Nat} {f : β → α → α}

theorem foldl_modify_getElem?_of_not_mem (ps : List β) (work : List α) {j : Nat} (h : ∀ p ∈ ps, at_ p ≠ j) :
    (ps.foldl (fun wk p => wk.modify (at_ p) (f p)) work)[j]? = work[j]? := by
  induction ps generalizing work with
  | nil => rfl
  | cons p ps ih =>
    rw [List.foldl_cons, ih _ fun q hq => h q (List.mem_cons_of_mem _ hq), List.getElem?_modify]
    simp [h p (by simp)]

theorem foldl_modify_getElem?_of_mem {ps : List β} (hd : ps.Pairwise fun p q => at_ p ≠ at_ q) (work : List α) {p : β}
    (hp : p ∈ ps) :
    (ps.foldl (fun wk p => wk.modify (at_ p) (f p)) work)[at_ p]? = (work[at_ p]?).map (f p) := by
  induction ps generalizing work with
  | nil => simp at hp
  | cons q ps ih =>
    rw [List.pairwise_cons] at hd
    rw [List.foldl_cons]
    rcases List.mem_cons.1 hp with rfl | hp
    · rw [foldl_modify_getElem?_of_not_mem ps _ fun r hr => (hd.1 r hr).symm, List.getElem?_modify]
      simp
    · rw [ih hd.2 _ hp, List.getElem?_modify]
      simp [hd.1 p hp]

/-! ### The two steps of `PIX.EMB` (43_pixel_substitution_codec.md R161) -/

theorem pixels_nodup (height width : Nat) : (pixels height width).Nodup := by
  refine List.nodup_flatMap.2 ⟨fun y _ => List.nodup_flatMap.2 ⟨fun x _ => ?_, ?_⟩, ?_⟩
  · exact (List.nodup_range).map fun a b hab => by simpa using hab
  · refine (List.nodup_range).imp fun hne => List.disjoint_left.2 fun p hp hq => hne ?_
    simp only [List.mem_map, List.mem_range] at hp hq
    obtain ⟨_, -, rfl⟩ := hp
    obtain ⟨_, -, hq⟩ := hq
    simp only [Prod.mk.injEq] at hq
    exact hq.2.1.symm
  · refine (List.nodup_range).imp fun hne => List.disjoint_left.2 fun p hp hq => hne ?_
    simp only [List.mem_flatMap, List.mem_map, List.mem_range] at hp hq
    obtain ⟨_, -, _, -, rfl⟩ := hp
    obtain ⟨_, -, _, -, hq⟩ := hq
    simp only [Prod.mk.injEq] at hq
    exact hq.1.symm

/-- The pixels of a secret no wider than the cover are at distinct places of the cover. -/
theorem pixels_pairwise_index {height width W : Nat} (hW : width ≤ W) :
    (pixels height width).Pairwise fun p q => pixelIndex W p.1 p.2.1 p.2.2 ≠ pixelIndex W q.1 q.2.1 q.2.2 := by
  refine List.Pairwise.imp_of_mem (fun {p q} hp hq hne h => hne ?_) (pixels_nodup height width)
  have hp := mem_pixels.1 hp
  have hq := mem_pixels.1 hq
  obtain ⟨h1, h2, h3⟩ := pixelIndex_inj (by omega) hp.2.2 (by omega) hq.2.2 h
  exact Prod.ext h1 (Prod.ext h2 h3)

/-- Step 1 at a byte of the image: in row 0, columns `[0, 64)`, channel `ch`, the header byte; elsewhere unchanged. -/
theorem embedHeader_getElem? {W ch d : Nat} {dh : List Bit} (work : List Byte) (hW : 64 ≤ W) (hch : ch < 3) {y x c : Nat}
    (hx : x < W) (hc : c < 3) :
    (embedHeader W ch d dh work)[pixelIndex W y x c]? =
      (work[pixelIndex W y x c]?).map fun b =>
        if y = 0 ∧ x < 64 ∧ c = ch then headerByte d (dh.getD x 0) b else b := by
  unfold embedHeader
  by_cases h : y = 0 ∧ x < 64 ∧ c = ch
  · obtain ⟨rfl, hx', rfl⟩ := h
    have hd : (List.range 64).Pairwise fun p q => pixelIndex W 0 p c ≠ pixelIndex W 0 q c :=
      (List.nodup_range).imp fun hne h => hne (by unfold pixelIndex at h; omega)
    rw [foldl_modify_getElem?_of_mem (at_ := fun k => pixelIndex W 0 k c) (f := fun k => headerByte d (dh.getD k 0)) hd work
      (List.mem_range.2 hx')]
    simp [hx']
  · rw [foldl_modify_getElem?_of_not_mem (at_ := fun k => pixelIndex W 0 k ch)
      (f := fun k => headerByte d (dh.getD k 0)) (List.range 64) work]
    · simp [h]
    · intro k hk heq
      have hk := List.mem_range.1 hk
      obtain ⟨h1, h2, h3⟩ := pixelIndex_inj (by omega) hch hx hc heq
      exact h ⟨h1.symm, by omega, h3.symm⟩

/-- Step 2 at a byte of the image: at a pixel of the secret, the payload byte; elsewhere unchanged. -/
theorem embedPayload_getElem? {W d sh sw : Nat} {sec : Space 8} (work : List Byte) (hW : sw ≤ W) {y x c : Nat}
    (hx : x < W) (hc : c < 3) :
    (embedPayload W d sh sw sec work)[pixelIndex W y x c]? =
      (work[pixelIndex W y x c]?).map fun b =>
        if y < sh ∧ x < sw then payloadByte d (sec.read (pixelIndex sw y x c)) b else b := by
  unfold embedPayload
  by_cases h : y < sh ∧ x < sw
  · rw [foldl_modify_getElem?_of_mem (at_ := fun p : Nat × Nat × Nat => pixelIndex W p.1 p.2.1 p.2.2)
      (f := fun p => payloadByte d (sec.read (pixelIndex sw p.1 p.2.1 p.2.2))) (pixels_pairwise_index hW) work
      (p := (y, x, c)) (mem_pixels.2 ⟨h.1, h.2, hc⟩)]
    simp [h]
  · rw [foldl_modify_getElem?_of_not_mem (at_ := fun p : Nat × Nat × Nat => pixelIndex W p.1 p.2.1 p.2.2)
      (f := fun p => payloadByte d (sec.read (pixelIndex sw p.1 p.2.1 p.2.2))) (pixels sh sw) work]
    · simp [h]
    · intro p hp heq
      have hp := mem_pixels.1 hp
      obtain ⟨h1, h2, -⟩ := pixelIndex_inj (by omega) hp.2.2 hx hc heq
      exact h ⟨by omega, by omega⟩

/-- The coordinates in their order: the byte `(y, x, c)` is number `sidx(y, x, c)` (20_memory.md R53). -/
theorem pixels_getElem? {height width y x c : Nat} (hy : y < height) (hx : x < width) (hc : c < 3) :
    (pixels height width)[pixelIndex width y x c]? = some (y, x, c) := by
  have row : ∀ (y' k : Nat), x < k → ((List.range k).flatMap fun x' => (List.range 3).map fun c' => (y', x', c'))[x * 3 + c]? =
      some (y', x, c) := by
    intro y' k hk
    induction k with
    | zero => omega
    | succ k ih =>
      rw [List.range_succ (n := k), List.flatMap_append]
      have hlen : ((List.range k).flatMap fun x' => (List.range 3).map fun c' => (y', x', c')).length = 3 * k := by
        simp [List.length_flatMap]
        ring
      rcases Nat.lt_or_ge x k with h | h
      · rw [List.getElem?_append_left (by omega), ih h]
      · obtain rfl : x = k := by omega
        rw [List.getElem?_append_right (by omega), hlen, show x * 3 + c - 3 * x = c by omega]
        simp [hc]
  induction height with
  | zero => omega
  | succ k ih =>
    have hlen := pixels_length k width
    have happ : pixels (k + 1) width =
        pixels k width ++ (List.range width).flatMap fun x' => (List.range 3).map fun c' => (k, x', c') := by
      simp [pixels, List.range_succ, List.flatMap_append]
    rw [happ]
    rcases Nat.lt_or_ge y k with h | h
    · rw [List.getElem?_append_left (by rw [hlen]; exact pixelIndex_lt h hx hc), ih h]
    · obtain rfl : y = k := by omega
      have hi : pixelIndex width y x c = 3 * y * width + (x * 3 + c) := by unfold pixelIndex; ring
      rw [List.getElem?_append_right (by omega), hlen, hi, Nat.add_sub_cancel_left, row y width hx]

/-! ### Headers spelled by a carrier -/

theorem pixelIndex_row_zero (W k c : Nat) : pixelIndex W 0 k c = 3 * k + c := by
  simp [pixelIndex, Nat.mul_comm]

theorem valMsb_of_spellsLength {s : State} {m : Word} (h : s.spellsLength m) :
    valMsb (carrierBits s.car 0 32) = m.toNat := by
  refine valMsb_eq_of_bits (by simp) fun i hi => ?_
  obtain ⟨v, hv, hb⟩ := h i hi
  rw [List.getD_eq_getElem?_getD, carrierBits_getElem? _ _ hi, Nat.zero_add, Space.read_eq_of_get hv, ← hb]
  simp [bit0]

theorem written_of_spellsLength {s : State} {m : Word} (h : s.spellsLength m) : s.car.written (List.range 32) = true :=
  Space.written_range_iff.2 fun i hi => (h i hi).imp fun _ hv => hv.1

theorem headerBit_getLsbD_zero {d : Nat} (hd : d < 8) (v : Sample) :
    (headerBit d (sampleByte v)).getLsbD 0 = v.getLsbD d := by
  simp [headerBit, sampleByte, hd]

theorem State.bitDepth_lt (s : State) : s.bitDepth < 8 := (s.pixcfg.extractLsb' 2 3).isLt

theorem State.imageHeader_getElem? (s : State) {k : Nat} (hk : k < 64) :
    s.imageHeader[k]? = some (headerBit s.bitDepth (sampleByte (s.car.read (3 * k + s.channel)))) := by
  simp [State.imageHeader, hk, pixelIndex_row_zero]

theorem valMsb_of_spellsDimensions {s : State} {sw sh : Word} (h : s.spellsDimensions sw sh) :
    valMsb (s.imageHeader.take 32) = sw.toNat ∧ valMsb (s.imageHeader.drop 32) = sh.toNat := by
  refine ⟨valMsb_eq_of_bits (by simp) fun k hk => ?_, valMsb_eq_of_bits (by simp) fun k hk => ?_⟩
  · obtain ⟨v, hv, hb⟩ := h.1 k hk
    rw [List.getD_eq_getElem?_getD, List.getElem?_take_of_lt hk, s.imageHeader_getElem? (by omega),
      Space.read_eq_of_get hv, Option.getD_some, headerBit_getLsbD_zero s.bitDepth_lt, hb]
  · obtain ⟨v, hv, hb⟩ := h.2 k hk
    rw [List.getD_eq_getElem?_getD, List.getElem?_drop, s.imageHeader_getElem? (by omega),
      Space.read_eq_of_get hv, Option.getD_some, headerBit_getLsbD_zero s.bitDepth_lt, hb]

theorem written_of_spellsDimensions {s : State} {sw sh : Word} (h : s.spellsDimensions sw sh) :
    s.car.written ((List.range 64).map fun k => pixelIndex s.w.toNat 0 k s.channel) = true := by
  simp only [Space.written_iff, List.forall_mem_map, List.mem_range, pixelIndex_row_zero]
  intro k hk
  rcases Nat.lt_or_ge k 32 with hk' | hk'
  · exact (h.1 k hk').imp fun _ hv => hv.1
  · have := h.2 (k - 32) (by omega)
    rw [show 32 + (k - 32) = k by omega] at this
    exact this.imp fun _ hv => hv.1

end Sys2Proof.Machine
end

