-- ==== Sys2Proof/Laws/PerInstr.lean ====
section
/-! SUPPORT. Statements for all instructions, made per instruction: one lemma per constructor. -/

namespace Sys2Proof.Laws.EncodesToRow

/-- The word of a well-formed instruction selects the row of R87's map that bears its mnemonic. -/
def Statement (i : Instr) : Prop :=
  i.wf = true → ∃ r ∈ opcodeTable, r.mnemonic = i.mnemonic ∧ r.selectedBy (encode i) = true

theorem cfgDelim : Statement .cfgDelim := by unfold Statement; decide

/-- The two operand fields of a format P word lie outside the row's mask. -/
theorem formatP_masked (ch d : Nat) (hch : ch < 4) (hd : d < 256) :
    (encode (.cfgPix ch d) &&& 0xFFFF00FC : Word) = 0x02000000 := by
  have h : ∀ (c : BitVec 2) (e : BitVec 8),
      ((0x02000000 ||| (e.setWidth 32 <<< 8) ||| c.setWidth 32 : Word) &&& 0xFFFF00FC) = 0x02000000 := by
    intro c e
    apply BitVec.eq_of_getLsbD_eq
    intro i hi
    interval_cases i <;> simp
  have hc : BitVec.ofNat 32 ch = (BitVec.ofNat 2 ch).setWidth 32 := by
    apply BitVec.eq_of_toNat_eq
    simp
    omega
  have he : BitVec.ofNat 32 d = (BitVec.ofNat 8 d).setWidth 32 := by
    apply BitVec.eq_of_toNat_eq
    simp
    omega
  simp only [encode, hc, he, h]

theorem cfgPix (ch d : Nat) : Statement (.cfgPix ch d) := by
  intro h
  simp only [Instr.wf, Bool.and_eq_true, decide_eq_true_eq] at h
  exact ⟨⟨"CFG.PIX", 0x02000000, 0xFFFF00FC⟩, by simp [opcodeTable], rfl,
    by simpa [OpcodeRow.selectedBy] using formatP_masked ch d h.1 h.2⟩

theorem txtEnc : Statement .txtEnc := by unfold Statement; decide

theorem txtDec : Statement .txtDec := by unfold Statement; decide

theorem lsbEmb (w : SampleWidth) : Statement (.lsbEmb w) := by cases w <;> unfold Statement <;> decide

theorem lsbExt (w : SampleWidth) : Statement (.lsbExt w) := by cases w <;> unfold Statement <;> decide

theorem pixEmb : Statement .pixEmb := by unfold Statement; decide

theorem pixExt : Statement .pixExt := by unfold Statement; decide

end Sys2Proof.Laws.EncodesToRow
end

