-- ==== Sys2Proof/Tests/Slice0.lean ====
section
/-! SUPPORT. Smoke tests of well-formedness, decode tests on words written out from the spec's encodings, at most two
one-step tests per command on the spec's vectors (95_test_vectors.md), and a witness for the hypotheses of every
statement of Certificates/Slice0/Obligations.lean. -/

namespace Sys2Proof.Tests

open Sys2Proof Sys2Proof.Machine

/-! ### WellFormed: one ill-formed term for each check (30_encoding.md R86) -/

theorem test_wf_refuses_channel_of_three_bits : (Instr.cfgPix 4 1).wf = false := by decide

theorem test_wf_refuses_depth_of_nine_bits : (Instr.cfgPix 0 256).wf = false := by decide

theorem test_wf_admits_illegal_operand_values : (Instr.cfgPix 3 255).wf = true := by decide

/-! ### Decoding, by words written out from R85 and R87 -/

theorem test_decode_cfgDelim : decode 0b00000001000000000000000000000000#32 = .ok .cfgDelim := by rfl

/-- `CFG.PIX 1, 2` = 0x02000201 (R160): `d` in bits 15:8, `ch` in bits 1:0. -/
theorem test_decode_cfgPix : decode 0b00000010000000000000001000000001#32 = .ok (.cfgPix 1 2) := by rfl

theorem test_decode_txtEnc : decode 0b00010000000000000000000000000000#32 = .ok .txtEnc := by rfl

theorem test_decode_txtDec : decode 0b00010001000000000000000000000000#32 = .ok .txtDec := by rfl

theorem test_decode_lsbEmb : decode 0b00100000000000000000000000000001#32 = .ok (.lsbEmb .aud) := by rfl

theorem test_decode_lsbExt : decode 0b00100001000000000000000000000000#32 = .ok (.lsbExt .img) := by rfl

theorem test_decode_pixEmb : decode 0b00110000000000000000000000000000#32 = .ok .pixEmb := by rfl

theorem test_decode_pixExt : decode 0b00110001000000000000000000000000#32 = .ok .pixExt := by rfl

/-- V-ILL-1: no word of the list is a command. -/
theorem test_decode_illegal_words :
    ([0x00000000, 0x40000000, 0xFFFFFFFF, 0x12000000, 0x10000001, 0x30000100, 0x20000002, 0x21010000, 0x02010400,
      0x02000404] : List Word).map (fun c => (decode c).toOption) = List.replicate 10 none := by decide

theorem test_decodeTableWord_cfgPix : decodeTableWord 32 0x02000400 = some (.cfgPix 0 4) := by rfl

/-! ### Helpers (V-HLP-1 to V-HLP-3) -/

theorem test_bitsMsb_56 : (bitsMsb 56 32).drop 24 = [0, 0, 1, 1, 1, 0, 0, 0] := by decide

theorem test_utf8_four_bytes : utf8 0x1F600 = [0xF0, 0x9F, 0x98, 0x80] := by decide

theorem test_utf8_three_bytes : utf8 0x20AC = [0xE2, 0x82, 0xAC] := by decide

theorem test_find_none : find [0x41, 0x23] defaultDelimiter = none := by decide

/-! ### One-step tests -/

/-- What a field is after a result, if there is a next state. -/
def after {α : Type} (r : Result) (f : State → α) : Option α :=
  match r with
  | .next s => some (f s)
  | .fault _ => none
  | .refused _ => none

/-- A space whose first elements hold the given values. -/
def loaded {w : Nat} (vals : List (BitVec w)) : Space w := ⟨cellsFrom 0 vals⟩

/-- R130's worked example: TXT = "#". -/
theorem test_cfgDelim_hash :
    after (exec .cfgDelim { State.reset with tlen := 1, txt := loaded [0x23] })
      (fun t => (t.dlen, t.delim.take 2, t.status)) = some (1, [0x23, 0x45], 0) := by decide

/-- V-CFG-2 with `DELIM_MAX` = 5. -/
theorem test_cfgDelim_too_long :
    after (exec .cfgDelim { State.reset with cfg := { Config.chosen with delimMax := 5 }, tlen := 6 })
      (fun t => (t.dlen, t.status)) = some (5, 3) := by decide

/-- V-CFG-1. -/
theorem test_cfgPix_1_2 : after (exec (.cfgPix 1 2) State.reset) (fun t => (t.pixcfg, t.status)) = some (9, 0) := by
  decide

/-- V-CFG-1, S6: bit depth 5. -/
theorem test_cfgPix_0_5 : after (exec (.cfgPix 0 5) State.reset) (fun t => (t.pixcfg, t.status)) = some (0x10, 3) := by
  decide

/-- V-TXT-2: "A" with delimiter "#". -/
theorem test_txtEnc_A :
    after (exec .txtEnc { State.reset with tlen := 1, txt := loaded [0x41], dlen := 1, delim := [0x23] })
      (fun t => (t.blen, t.bit.front 16)) = some (16, [0, 1, 0, 0, 0, 0, 0, 1, 0, 0, 1, 0, 0, 0, 1, 1]) := by decide

/-- V-TXT-5: 19 bits, the last three not read (here not even written). -/
theorem test_txtDec_hi :
    after (exec .txtDec { State.reset with
      blen := 19, bit := loaded [0, 1, 1, 0, 1, 0, 0, 0, 0, 1, 1, 0, 1, 0, 0, 1] })
      (fun t => (t.tlen, t.text, t.status)) = some (2, [0x68, 0x69], 0) := by decide

/-- P1's carrier, `(0x80 + 5*i) & 0xFF`. -/
def carrierP1 : List Sample := (List.range 48).map fun i => BitVec.ofNat 16 ((0x80 + 5 * i) % 256)

/-- P1 line 7, the embed: exact fill. -/
theorem test_lsbEmb_P1 :
    after (exec (.lsbEmb .img) { State.reset with
      n := 48, car := loaded carrierP1, blen := 16, bit := loaded [0, 1, 0, 0, 0, 0, 0, 1, 0, 0, 1, 0, 0, 0, 1, 1] })
      (fun t => (t.out.front 48).drop 24) =
        some [0xF8, 0xFC, 0x02, 0x07, 0x0C, 0x10, 0x16, 0x1A, 0x20, 0x25, 0x2A, 0x2E, 0x34, 0x38, 0x3E, 0x43, 0x48, 0x4C,
          0x53, 0x56, 0x5C, 0x60, 0x67, 0x6B] := by decide

/-- V-LSB-3: `0 + 32 > 31`. -/
theorem test_lsbEmb_short : after (exec (.lsbEmb .aud) { State.reset with n := 31 }) (·.status) = some 1 := by decide

/-- V-LSB-8: `M` = 12, four bits dropped, delimiter not found. -/
theorem test_lsbExt_twelve_bits :
    after (exec (.lsbExt .img) { State.reset with
      n := 48
      car := loaded (List.replicate 28 0 ++ [1, 1, 0, 0, 0, 1, 0, 0, 0, 0, 0, 1, 1, 1, 1, 1, 0, 0, 0, 0]) })
      (fun t => (t.hdr0, t.text, t.status)) = some (12, [0x41], 8) := by decide

/-- V-LSB-7: `N` = 33, one payload bit, the warning. -/
theorem test_lsbExt_one_bit :
    after (exec (.lsbExt .aud) { State.reset with n := 33, car := loaded (List.replicate 31 0 ++ [1, 0]) })
      (fun t => (t.hdr0, t.tlen, t.status)) = some (1, 0, 8) := by decide

/-- The first row of P3's cover, `(7*a + 3) & 0xFF`. -/
def coverRow : List Sample := (List.range 192).map fun a => BitVec.ofNat 16 ((7 * a + 3) % 256)

/-- V-PIX-2 (`d` = 3, `ch` = 0) on the cover's first row: bytes of all kinds but the last header bit's. -/
theorem test_pixEmb_V_PIX_2 :
    after (exec .pixEmb { State.reset with
      pixcfg := 0x0C, h := 1, w := 64, sh := 1, sw := 2, car := loaded coverRow
      sec := loaded [0xAB, 0xCD, 0xEF, 0x12, 0x34, 0x56] })
      (fun t => (t.out.front 7, t.out.read 90, t.out.read 91)) =
        some ([0x05, 0x0E, 0x17, 0x10, 0x19, 0x22, 0x20], 0x78, 0x80) := by decide +kernel

/-- V-PIX-7: `W` = 63. -/
theorem test_pixEmb_narrow :
    after (exec .pixEmb { State.reset with h := 100, w := 63, sh := 10, sw := 10 }) (·.status) = some 1 := by decide

/-- An image whose header bits spell `SW` = 1, `SH` = 1 in bit 4 of channel 0, with bytes 0A, FF, 35 at pixel (0, 0). -/
def stegoRow : List Sample :=
  [0x0A, 0xFF, 0x35] ++ List.replicate 90 0 ++ [0x10] ++ List.replicate 95 0 ++ [0x10, 0, 0]

/-- R163's worked example: 0x0A reconstructs to 0xA0. -/
theorem test_pixExt_one_pixel :
    after (exec .pixExt { State.reset with h := 1, w := 64, car := loaded stegoRow })
      (fun t => (t.hdr0, t.hdr1, t.recon.front 3, t.status)) = some (1, 1, [0xA0, 0xF0, 0x50], 0) := by decide +kernel

/-- V-PIX-8: `W` = 63, CAR not read. -/
theorem test_pixExt_narrow :
    after (exec .pixExt { State.reset with h := 2, w := 63, hdr0 := 7 }) (fun t => (t.hdr0, t.status)) =
      some (7, 2) := by decide

/-- P4 line 6: an illegal word. -/
theorem test_step_illegal_word :
    after (step (State.reset.withFetchWord 32 0x20000002)) (·.status) = some 5 := by decide

theorem test_step_runs_first_command :
    after (step (State.reset.withFetchWord 32 0x02000201)) (fun t => (t.pixcfg, t.host)) = some (9, []) := by decide

/-! ### Witnesses: concrete states that meet the hypotheses of each statement together -/

/-- A state in which every embedding command completes: "A" as text, one byte of bits, a 40-sample carrier at exact
fill, a 1 by 64 cover and a 1 by 1 secret. -/
def rig : State :=
  { State.reset with
    n := 40, h := 1, w := 64, sh := 1, sw := 1, tlen := 1, blen := 8
    car := loaded coverRow
    sec := loaded [0xAB, 0xCD, 0xEF]
    txt := loaded [0x41]
    bit := loaded [0, 1, 0, 0, 0, 0, 0, 1] }

/-- 32 samples that spell a length in bit 0. -/
def headerSamples (m : Nat) : List Sample := (bitsMsb m 32).map (BitVec.setWidth 16)

/-- A carrier of 40 samples that holds the 8 bits of "A". -/
def carrierOfA : List Sample := headerSamples 8 ++ [0, 1, 0, 0, 0, 0, 0, 1]

/-- An image whose header bits, in channel 0 and bit 4, spell the given dimensions. -/
def imageWithHeader (sw sh : Nat) : List Sample :=
  (dimensionHeader sw sh).flatMap fun b => [(b.setWidth 16 : Sample) <<< 4, 0, 0]

theorem rig_inv : rig.Inv :=
  ⟨by decide, by decide +kernel, by decide, by decide, by decide, by decide, by decide, by decide +kernel, by decide,
    by decide, by decide, by decide, by decide, by decide, by decide, by decide⟩

theorem witness_DecodeInvertsEncode : (Instr.cfgPix 3 255).wf = true ∧ (Instr.lsbExt .aud).wf = true := by decide

theorem witness_EncodeInvertsDecode :
    decode 0x0200FF03 = .ok (.cfgPix 3 255) ∧ decode 0x31000000 = .ok .pixExt := ⟨rfl, rfl⟩

theorem witness_DecoderFollowsOpcodeMap :
    (∃ r ∈ opcodeTable, r.selectedBy 0x0200FF03 = true) ∧ (∀ r ∈ opcodeTable, r.selectedBy 0x02000404 = false) ∧
    (∃ r₁ ∈ opcodeTable, ∃ r₂ ∈ opcodeTable, r₁.selectedBy 0x20000001 = true ∧ r₂.selectedBy 0x20000001 = true) := by
  decide

theorem witness_IllegalWordChangesOnlyStatus :
    (∃ (s : State) (rest : List HostAction), s.host = .command 0x00FFFFFF :: rest ∧
      ∀ r ∈ opcodeTable, r.selectedBy 0x00FFFFFF = false) ∧
    (∃ ch d : Nat, ch < 4 ∧ d < 256 ∧ (ch = 3 ∨ d < 1 ∨ 4 < d)) ∧
    (∃ ch d : Nat, ch < 4 ∧ d < 256 ∧ ch ≠ 3 ∧ d < 1) ∧ (∃ ch d : Nat, ch < 4 ∧ d < 256 ∧ ch ≠ 3 ∧ 4 < d) :=
  ⟨⟨{ rig with host := [.command 0x00FFFFFF] }, [], rfl, by decide⟩, ⟨3, 4, by decide⟩, ⟨2, 0, by decide⟩,
    ⟨2, 5, by decide⟩⟩

theorem witness_StepRunsTheDecodedCommand :
    (∃ (s : State) (rest : List HostAction), s.host = .command 0x20000001 :: rest ∧
      decode 0x20000001 = .ok (.lsbEmb .aud)) ∧ State.reset.host = [] :=
  ⟨⟨{ rig with host := [.command 0x20000001, .reset] }, [.reset], rfl, rfl⟩, rfl⟩

theorem witness_HostWriteSetsOneRegister :
    ∃ (s : State) (rest : List HostAction), s.host = .writeReg .sw 0xFFFFFFFF :: rest ∧ OperandReg.sh ≠ .sw :=
  ⟨{ rig with host := [.writeReg .sw 0xFFFFFFFF] }, [], rfl, by decide⟩

/-- For each space, loads that end at its capacity (4) and one beyond it. -/
theorem witness_HostLoadWritesOnlyItsElements :
    let small : State := { rig with cfg := ⟨64, 4, 4, 4, 4⟩ }
    (∀ a ∈ [HostAction.loadCar 3 [1], .loadOut 3 [1], .loadSec 3 [1], .loadRec 3 [1], .loadTxt 3 [1], .loadBit 3 [1],
      .loadCar 4 [1], .loadOut 4 [1], .loadSec 4 [1], .loadRec 4 [1], .loadTxt 4 [1], .loadBit 4 [1]],
      ∃ s : State, s.host = [a] ∧ s.cfg = small.cfg) ∧ 3 + [1].length ≤ small.cfg.capCar ∧
      ¬ 4 + [1].length ≤ small.cfg.capCar := by
  refine ⟨fun a _ => ⟨{ rig with cfg := ⟨64, 4, 4, 4, 4⟩, host := [a] }, rfl, rfl⟩, by decide, by decide⟩

theorem witness_CopyMakesCarHoldOut :
    ∃ (s : State) (rest : List HostAction), s.host = .copyOutToCar :: rest ∧ s.out.wf ∧
      (s.out.get 1).isSome = true ∧ (s.out.get 2).isSome = false ∧ (s.car.get 2).isSome = true :=
  ⟨{ rig with out := loaded [7, 8], host := [.copyOutToCar] }, [], rfl, by decide⟩

theorem witness_HostReadsChangeNothing :
    (∃ (s : State) (rest : List HostAction), s.host = .readReg (.delim 63) :: rest ∧ 63 < s.cfg.delimMax) ∧
    (∃ (s : State) (rest : List HostAction), s.host = .readElem .bit 7 :: rest ∧ 7 < s.capacity .bit ∧
      (s.hostElement .bit 7).isSome = true) ∧
    (∃ (s : State) (rest : List HostAction), s.host = .readElem .bit 8 :: rest ∧ 8 < s.capacity .bit ∧
      (s.hostElement .bit 8).isSome = false) :=
  ⟨⟨{ rig with host := [.readReg (.delim 63)] }, [], rfl, by decide⟩,
    ⟨{ rig with host := [.readElem .bit 7] }, [], rfl, by decide⟩,
    ⟨{ rig with host := [.readElem .bit 8] }, [], rfl, by decide⟩⟩

theorem witness_HostCannotWriteResultRegisters :
    ∃ (s t : State) (a : HostAction) (rest : List HostAction), s.host = a :: rest ∧ (∀ c, a ≠ .command c) ∧
      a ≠ .reset ∧ step s = .next t :=
  ⟨{ rig with host := [.writeReg .n 5] }, _, .writeReg .n 5, [], rfl, by simp, by decide, rfl⟩

theorem witness_ConfigurationChangesOnlyByItsCommands :
    (∃ s t : State, step s = .next t ∧ (∀ rest, s.host ≠ .reset :: rest) ∧ t.pixcfg ≠ s.pixcfg) ∧
    (∃ s t : State, step s = .next t ∧ (∀ rest, s.host ≠ .reset :: rest) ∧ (t.delim ≠ s.delim ∨ t.dlen ≠ s.dlen)) :=
  ⟨⟨{ rig with host := [.command 0x02000201] }, _, rfl, by simp, by decide⟩,
    ⟨{ rig with host := [.command 0x01000000] }, _, rfl, by simp, by decide⟩⟩

theorem witness_ResetConstructsTheDefaults :
    (⟨5, 0, 0, 0, 0⟩ : Config).wf ∧ ∃ (s : State) (rest : List HostAction), s.host = .reset :: rest :=
  ⟨by decide, { rig with host := [.reset] }, [], rfl⟩

theorem witness_ValMsbInvertsBitsMsb : 255 < 2 ^ 8 ∧ 0 < 2 ^ 0 ∧ 7 < 8 := by decide

theorem witness_Utf8FollowsItsTable :
    ([0x7F, 0x80, 0x7FF, 0x800, 0xD7FF, 0xE000, 0xFFFF, 0x10000, 0x10FFFF] : List CodePoint).all isScalar = true ∧
    ([0xD800, 0xDFFF, 0x110000] : List CodePoint).any isScalar = false := by decide

theorem witness_TxtEncWritesTheBitstream :
    (∃ (s : State) (text : List CodePoint), s.tlen.toNat = text.length ∧ text.length ≤ s.cfg.capTxt ∧
      s.txt.holds 0 text ∧ s.delimLegal ∧ text.all isScalar = false) ∧
    (∃ (s : State) (text : List CodePoint), s.tlen.toNat = text.length ∧ text.length ≤ s.cfg.capTxt ∧
      s.txt.holds 0 text ∧ s.delimLegal ∧ text.all isScalar = true ∧
      8 * (utf8s (text ++ s.delim.take s.dlen.toNat)).length < 2 ^ 32 ∧
      8 * (utf8s (text ++ s.delim.take s.dlen.toNat)).length = s.cfg.capBit) ∧
    (∃ (s : State) (text : List CodePoint), s.tlen.toNat = text.length ∧ text.length ≤ s.cfg.capTxt ∧
      s.txt.holds 0 text ∧ s.delimLegal ∧ text.all isScalar = true ∧
      8 * (utf8s (text ++ s.delim.take s.dlen.toNat)).length = s.cfg.capBit + 1) :=
  ⟨⟨{ rig with txt := loaded [0xD800] }, [0xD800], by decide⟩,
    ⟨{ rig with cfg := { Config.chosen with capBit := 48 } }, [0x41], by decide⟩,
    ⟨{ rig with cfg := { Config.chosen with capBit := 47 } }, [0x41], by decide⟩⟩

theorem witness_TxtEncLengthByCodePoint : ∃ t, exec .txtEnc rig = .next t := ⟨_, rfl⟩

theorem witness_TxtDecGivesOneCodePointPerByte :
    ∃ (s : State) (bits : List Bit), bits.length = 8 * (s.blen.toNat / 8) ∧ s.blen.toNat ≤ s.cfg.capBit ∧
      s.blen.toNat / 8 ≤ s.cfg.capTxt ∧ s.bit.holds 0 bits ∧ s.blen.toNat % 8 = 7 :=
  ⟨{ rig with blen := 15 }, [0, 1, 0, 0, 0, 0, 0, 1], by decide⟩

theorem witness_TextCodecRoundTrip :
    ∃ s₁, exec .txtEnc rig = .next s₁ ∧ (utf8s (rig.text ++ rig.delimiter)).length ≤ rig.cfg.capTxt :=
  ⟨_, rfl, by decide⟩

theorem witness_CfgDelimSetsTheDelimiter :
    (∃ s : State, s.cfg.delimMax < s.tlen.toNat ∧ s.tlen.toNat = s.cfg.delimMax + 1) ∧
    (∃ (s : State) (text : List CodePoint), s.tlen.toNat = text.length ∧ text.length = s.cfg.delimMax ∧
      text.length ≤ s.cfg.capTxt ∧ s.txt.holds 0 text ∧ text.all isScalar = true) ∧
    (∃ (s : State) (text : List CodePoint), s.tlen.toNat = text.length ∧ text.length ≤ s.cfg.delimMax ∧
      text.length ≤ s.cfg.capTxt ∧ s.txt.holds 0 text ∧ text.all isScalar = false) :=
  ⟨⟨{ rig with tlen := 65 }, by decide⟩,
    ⟨{ rig with cfg := { Config.chosen with delimMax := 5 }, tlen := 5, txt := loaded defaultDelimiter },
      defaultDelimiter, by decide⟩,
    ⟨{ rig with txt := loaded [0x110000] }, [0x110000], by decide⟩⟩

/-- `M + 32 = N + 1`, and exact fill `M + 32 = N` at both sample widths. -/
theorem witness_LsbEmbWritesTheStegoCarrier :
    (∃ s : State, s.n.toNat < s.blen.toNat + 32 ∧ s.n.toNat + 1 = s.blen.toNat + 32) ∧
    (∃ (s : State) (carrier : List Sample) (payload : List Bit), s.n.toNat = carrier.length ∧
      s.blen.toNat = payload.length ∧ payload.length + 32 = carrier.length ∧ carrier.length ≤ s.cfg.capCar ∧
      payload.length ≤ s.cfg.capBit ∧ s.car.wf ∧ s.car.holds 0 carrier ∧ s.bit.holds 0 payload ∧
      carrier.all (fun v => decide (v.toNat < 2 ^ 8)) = true) :=
  ⟨⟨{ rig with n := 39 }, by decide⟩,
    ⟨{ rig with car := loaded (coverRow.take 40) }, coverRow.take 40, [0, 1, 0, 0, 0, 0, 0, 1], by decide +kernel⟩⟩

theorem carFits_of_samplesFit {s : State} {w : SampleWidth} {n : Nat} (hw : s.car.wf)
    (h : samplesFit w s.car n = true) : s.carFits w n :=
  (samplesFit_iff hw).1 h

/-- Delimiter absent, and delimiter present at the end of the text, each at exact fill. -/
theorem witness_LsbExtGivesTheTruncatedText :
    ∀ dl ∈ [([0x42] : List CodePoint), [0x41]], ∃ (s : State) (m : Word) (samples : List Sample) (text : List CodePoint),
      s.delimiter = dl ∧ 0 < m.toNat ∧ m.toNat + 32 = s.n.toNat ∧ s.n.toNat ≤ s.cfg.capCar ∧ s.car.wf ∧
      s.carFits .img s.n.toNat ∧ samples.length = 32 + m.toNat ∧ s.car.holds 0 samples ∧
      (∀ i, i < 32 → (samples.getD i 0).getLsbD 0 = m.getLsbD (31 - i)) ∧
      text = bitsToText ((samples.drop 32).map fun v => v.extractLsb' 0 1) ∧ text.length ≤ s.cfg.capTxt ∧
      (find text s.delimiter).isSome = decide (dl = [0x41]) := by
  have key : ∀ c : CodePoint, ({ rig with car := loaded carrierOfA, dlen := 1, delim := [c] } : State).carFits .img 40 :=
    fun c => carFits_of_samplesFit (show (loaded carrierOfA).wf by decide)
      (show samplesFit .img (loaded carrierOfA) 40 = true by decide)
  intro dl hdl
  rcases List.mem_cons.1 hdl with rfl | hdl
  · exact ⟨{ rig with car := loaded carrierOfA, dlen := 1, delim := [0x42] }, 8, carrierOfA, [0x41], by decide, by decide,
      by decide, by decide, by decide, key _, by decide, by decide, by decide, by decide, by decide, by decide⟩
  · rw [List.mem_singleton] at hdl
    subst hdl
    exact ⟨{ rig with car := loaded carrierOfA, dlen := 1, delim := [0x41] }, 8, carrierOfA, [0x41], by decide, by decide,
      by decide, by decide, by decide, key _, by decide, by decide, by decide, by decide, by decide, by decide⟩

/-- `N` = 31; a header of 0; a header of `N - 31`. -/
theorem witness_LsbExtRejectsInvalidHeaders :
    (∃ s : State, s.n.toNat < 32 ∧ s.n.toNat = 31) ∧
    (∀ m ∈ [(0 : Nat), 9], ∃ (s : State) (header : List Sample), 32 ≤ s.n.toNat ∧ s.n.toNat ≤ s.cfg.capCar ∧ s.car.wf ∧
      s.carFits .img s.n.toNat ∧ header.length = 32 ∧ s.car.holds 0 header ∧
      (∀ i, i < 32 → (header.getD i 0).getLsbD 0 = (BitVec.ofNat 32 m).getLsbD (31 - i)) ∧
      (m = 0 ∨ s.n.toNat + 1 = m + 32)) := by
  refine ⟨⟨{ rig with n := 31 }, by decide⟩, fun m hm => ?_⟩
  rcases List.mem_cons.1 hm with rfl | hm
  · exact ⟨{ rig with car := loaded (headerSamples 0) }, headerSamples 0, by decide, by decide, by decide,
      carFits_of_samplesFit (by decide) (by decide), by decide, by decide, by decide, by decide⟩
  · rw [List.mem_singleton] at hm
    subst hm
    exact ⟨{ rig with car := loaded (headerSamples 9) }, headerSamples 9, by decide, by decide, by decide,
      carFits_of_samplesFit (by decide) (by decide), by decide, by decide, by decide, by decide⟩

/-- A successful and a failing embed after `TXT.ENC`. -/
theorem witness_HideTextIsEncodeThenEmbed :
    ∀ n ∈ [(80 : Word), 79], ∃ (s s₁ s₂ : State) (rest : List HostAction),
      s.n = n ∧ s.host = pseudoActions (.hideTxt .img) ++ rest ∧
      exec .txtEnc { s with host := .command (encode (.lsbEmb .img)) :: rest } = .next s₁ ∧
      exec (.lsbEmb .img) { s₁ with host := rest } = .next s₂ := by
  intro n hn
  rcases List.mem_cons.1 hn with rfl | hn
  · exact ⟨{ rig with n := 80, host := pseudoActions (.hideTxt .img) }, _, _, [], rfl, rfl, rfl, rfl⟩
  · rw [List.mem_singleton] at hn
    subst hn
    exact ⟨{ rig with n := 79, host := pseudoActions (.hideTxt .img) }, _, _, [], rfl, rfl, rfl, rfl⟩

/-- Text "A" with `"<END>"` at exact fill, so the delimiter stands first at the text's end. -/
theorem witness_TextInCarrierRoundTrip :
    ∃ s s₁ s₂ : State, s.Inv ∧ exec .txtEnc s = .next s₁ ∧ exec (.lsbEmb .img) s₁ = .next s₂ ∧ s₂.status = 0 ∧
      s.text.all (fun cp => decide (cp.toNat ≤ 0x7F)) = true ∧ s.delimiter ≠ [] ∧
      s.delimiter.all (fun cp => decide (cp.toNat ≤ 0x7F)) = true ∧
      find (s.text ++ s.delimiter) s.delimiter = some s.text.length :=
  ⟨{ rig with n := 80 }, _, _,
    ⟨by decide, by decide +kernel, by decide, by decide, by decide, by decide, by decide, by decide +kernel, by decide,
      by decide, by decide, by decide, by decide, by decide, by decide, by decide⟩,
    rfl, rfl, by decide, by decide, by decide, by decide, by decide⟩

/-- Text "A" with delimiter "A": the first occurrence is before the text's end (R134 (a)). -/
theorem witness_TextInCarrierRoundTrip_cut :
    ∃ s s₁ s₂ : State, s.Inv ∧ exec .txtEnc s = .next s₁ ∧ exec (.lsbEmb .img) s₁ = .next s₂ ∧ s₂.status = 0 ∧
      s.text.all (fun cp => decide (cp.toNat ≤ 0x7F)) = true ∧ s.delimiter ≠ [] ∧
      s.delimiter.all (fun cp => decide (cp.toNat ≤ 0x7F)) = true ∧
      find (s.text ++ s.delimiter) s.delimiter ≠ some s.text.length :=
  ⟨{ rig with n := 48, dlen := 1, delim := 0x41 :: rig.delim.drop 1 }, _, _,
    ⟨by decide, by decide +kernel, by decide, by decide, by decide, by decide, by decide, by decide +kernel, by decide,
      by decide, by decide, by decide, by decide, by decide, by decide, by decide⟩,
    rfl, rfl, by decide, by decide, by decide, by decide, by decide⟩

/-- A delimiter above 0x7F (R134 (c)); then text and delimiter both empty. -/
theorem witness_TextInCarrierRoundTrip_others :
    (∃ s s₁ s₂ : State, s.Inv ∧ exec .txtEnc s = .next s₁ ∧ exec (.lsbEmb .aud) s₁ = .next s₂ ∧ s₂.status = 0 ∧
      s.text ++ s.delimiter ≠ [] ∧ (utf8s (s.text ++ s.delimiter)).length ≤ s.cfg.capTxt ∧
      s.delimiter = [0xE9]) ∧
    (∃ s s₁ s₂ : State, s.Inv ∧ exec .txtEnc s = .next s₁ ∧ exec (.lsbEmb .aud) s₁ = .next s₂ ∧ s₂.status = 0 ∧
      s.text ++ s.delimiter = []) :=
  ⟨⟨{ rig with n := 56, dlen := 1, delim := 0xE9 :: rig.delim.drop 1 }, _, _,
    ⟨by decide, by decide +kernel, by decide, by decide, by decide, by decide, by decide, by decide +kernel, by decide,
      by decide, by decide, by decide, by decide, by decide, by decide, by decide⟩,
    rfl, rfl, by decide, by decide, by decide, by decide⟩,
   ⟨{ rig with n := 32, tlen := 0, dlen := 0 }, _, _,
    ⟨by decide, by decide +kernel, by decide, by decide, by decide, by decide, by decide, by decide +kernel, by decide,
      by decide, by decide, by decide, by decide, by decide, by decide, by decide⟩,
    rfl, rfl, by decide, by decide⟩⟩

theorem witness_CfgPixWritesOnlyLegalConfigurations :
    (∃ ch d : Nat, ch < 4 ∧ d < 256 ∧ 1 ≤ d ∧ d ≤ 4 ∧ ch ≤ 2) ∧
    (∃ ch d : Nat, ch < 4 ∧ d < 256 ∧ d < 1) ∧ (∃ ch d : Nat, ch < 4 ∧ d < 256 ∧ 4 < d) ∧
    (∃ ch d : Nat, ch < 4 ∧ d < 256 ∧ ch = 3) :=
  ⟨⟨2, 4, by decide⟩, ⟨0, 0, by decide⟩, ⟨0, 5, by decide⟩, ⟨3, 1, by decide⟩⟩

theorem witness_PixEmbRejectsSecretsThatDoNotFit :
    (∃ s : State, s.w.toNat < 64 ∧ s.w.toNat = 63) ∧ (∃ s : State, s.h.toNat < s.sh.toNat ∧ 64 ≤ s.w.toNat) ∧
    (∃ s : State, s.w.toNat < s.sw.toNat ∧ 64 ≤ s.w.toNat) ∧ (∃ s : State, s.h.toNat = 0 ∧ s.sh.toNat = 0) :=
  ⟨⟨{ rig with w := 63 }, by decide⟩, ⟨{ rig with sh := 2 }, by decide⟩, ⟨{ rig with sw := 65 }, by decide⟩,
    ⟨{ rig with h := 0, sh := 0 }, by decide⟩⟩

/-- On this image there are header only, payload only, both and neither bytes. -/
theorem witness_PixEmbClosedForm :
    rig.pixcfgLegal ∧ 64 ≤ rig.w.toNat ∧ rig.sh.toNat ≤ rig.h.toNat ∧ rig.sw.toNat ≤ rig.w.toNat ∧ 0 < rig.h.toNat ∧
    3 * rig.h.toNat * rig.w.toNat ≤ rig.cfg.capCar ∧ 3 * rig.sh.toNat * rig.sw.toNat ≤ rig.cfg.capSec ∧ rig.car.wf ∧
    coverRow.length = 3 * rig.h.toNat * rig.w.toNat ∧ rig.car.holds 0 coverRow ∧
    coverRow.all (fun v => decide (v.toNat < 2 ^ 8)) = true ∧
    ([0xAB, 0xCD, 0xEF] : List Byte).length = 3 * rig.sh.toNat * rig.sw.toNat ∧
    rig.sec.holds 0 [0xAB, 0xCD, 0xEF] := by decide +kernel

/-- A state ready for `PIX.EXT` whose image spells the given dimensions. -/
def extractRig (sw sh : Nat) : State := { rig with car := loaded (imageWithHeader sw sh) }

theorem witness_PixExtReconstructsTheSecret :
    let s := extractRig 64 1
    s.pixcfgLegal ∧ 64 ≤ s.w.toNat ∧ 1 ≤ s.h.toNat ∧ 3 * s.h.toNat * s.w.toNat ≤ s.cfg.capCar ∧ s.car.wf ∧
    s.carFits .img (3 * s.h.toNat * s.w.toNat) ∧
    (∀ k, k < 32 → ∃ v, s.car.get (3 * k + s.channel) = some v ∧ v.getLsbD s.bitDepth = (64 : Word).getLsbD (31 - k)) ∧
    (∀ k, k < 32 → ∃ v, s.car.get (3 * (32 + k) + s.channel) = some v ∧
      v.getLsbD s.bitDepth = (1 : Word).getLsbD (31 - k)) ∧
    0 < (64 : Word).toNat ∧ 0 < (1 : Word).toNat ∧ (64 : Word).toNat ≤ s.w.toNat ∧ (1 : Word).toNat ≤ s.h.toNat ∧
    3 * (1 : Word).toNat * (64 : Word).toNat ≤ s.cfg.capSec ∧
    (∀ y, y < 1 → ∀ x, x < 64 → ∀ c, c < 3 → (s.car.get ((y * s.w.toNat + x) * 3 + c)).isSome = true) := by
  have bits : ∀ (base : Nat) (m : Word), (∀ k, k < 32 → ((extractRig 64 1).car.get (3 * (base + k))).map
      (fun v => v.getLsbD 4) = some (m.getLsbD (31 - k))) →
      ∀ k, k < 32 → ∃ v, (extractRig 64 1).car.get (3 * (base + k)) = some v ∧ v.getLsbD 4 = m.getLsbD (31 - k) :=
    fun base m h k hk => Option.map_eq_some_iff.1 (h k hk)
  refine ⟨by decide, by decide, by decide, by decide, by decide +kernel,
    carFits_of_samplesFit (by decide +kernel) (by decide +kernel), fun k hk => ?_, bits 32 1 (by decide +kernel), by decide,
    by decide, by decide, by decide, by decide, by decide +kernel⟩
  have := bits 0 64 (by decide +kernel) k hk
  rwa [Nat.zero_add] at this

/-- Each way a header is out of range, at the boundary: `SW` = 0, `SH` = 0, `SW` = `W` + 1, `SH` = `H` + 1. -/
theorem witness_PixExtRejectsInvalidHeaders :
    (∃ s : State, s.w.toNat < 64 ∧ s.w.toNat = 63) ∧ (∃ s : State, s.h.toNat < 1 ∧ 64 ≤ s.w.toNat) ∧
    (∀ p ∈ [((0 : Word), (1 : Word)), (1, 0), (65, 1), (1, 2)],
      let s := extractRig p.1.toNat p.2.toNat
      s.pixcfgLegal ∧ 64 ≤ s.w.toNat ∧ 1 ≤ s.h.toNat ∧ 3 * s.h.toNat * s.w.toNat ≤ s.cfg.capCar ∧ s.car.wf ∧
      samplesFit .img s.car (3 * s.h.toNat * s.w.toNat) = true ∧
      (∀ k, k < 32 → (s.car.get (3 * k + s.channel)).map (fun v => v.getLsbD s.bitDepth) =
        some (p.1.getLsbD (31 - k))) ∧
      (∀ k, k < 32 → (s.car.get (3 * (32 + k) + s.channel)).map (fun v => v.getLsbD s.bitDepth) =
        some (p.2.getLsbD (31 - k))) ∧
      (p.1.toNat = 0 ∨ p.2.toNat = 0 ∨ s.w.toNat < p.1.toNat ∨ s.h.toNat < p.2.toNat)) := by
  refine ⟨⟨{ rig with w := 63 }, by decide⟩, ⟨{ rig with h := 0 }, by decide⟩, fun p hp => ?_⟩
  simp only [List.mem_cons, List.not_mem_nil, or_false] at hp
  rcases hp with rfl | rfl | rfl | rfl <;> decide +kernel

theorem pixEmb_completes {s : State} (hf : s.secretFits) (hw : s.imagesWithin)
    (hc : s.car.written (List.range (3 * s.h.toNat * s.w.toNat)) = true)
    (hs : s.sec.written (List.range (3 * s.sh.toNat * s.sw.toNat)) = true)
    (h8 : samplesFit .img s.car (3 * s.h.toNat * s.w.toNat) = true) :
    ∃ t : State, exec .pixEmb s = .next t ∧ t.status = 0 :=
  ⟨_, execPixEmb_next.2 (.inr ⟨hf.1, hf.2.1, hf.2.2.1, hf.2.2.2, hw.1, hw.2, hc, hs, h8, rfl⟩),
    (by decide : statusWord .success false = 0)⟩

theorem rig_pixEmb : ∃ t : State, exec .pixEmb rig = .next t ∧ t.status = 0 :=
  pixEmb_completes (by decide) (by decide) (by decide +kernel) (by decide) (by decide +kernel)

theorem witness_ImageInImageRoundTrip : ∃ s s₁ : State, s.Inv ∧ exec .pixEmb s = .next s₁ ∧ s₁.status = 0 :=
  ⟨rig, rig_pixEmb.imp fun _ ht => ⟨rig_inv, ht⟩⟩

/-- A secret of width 0 and one of height 0: `PIX.EMB` completes, and `PIX.EXT` then fails. -/
theorem witness_ImageInImageRoundTrip_empty :
    (∃ s s₁ : State, s.Inv ∧ s.sw = 0 ∧ exec .pixEmb s = .next s₁ ∧ s₁.status = 0) ∧
    (∃ s s₁ : State, s.Inv ∧ s.sh = 0 ∧ exec .pixEmb s = .next s₁ ∧ s₁.status = 0) :=
  ⟨⟨{ rig with sw := 0 }, (pixEmb_completes (by decide) (by decide) (by decide +kernel) (by decide)
      (by decide +kernel)).imp fun _ ht => ⟨{ rig_inv with }, rfl, ht⟩⟩,
    ⟨{ rig with sh := 0 }, (pixEmb_completes (by decide) (by decide) (by decide +kernel) (by decide)
      (by decide +kernel)).imp fun _ ht => ⟨{ rig_inv with }, rfl, ht⟩⟩⟩

/-- The least `DELIM_MAX` and no capacity at all. -/
theorem witness_ResetMeetsTheInvariant : (⟨5, 0, 0, 0, 0⟩ : Config).wf := by decide

theorem witness_StepKeepsTheInvariant :
    ∃ s t : State, s.Inv ∧ step s = .next t ∧ s.host ≠ [] :=
  ⟨{ rig with host := [.command 0x02000201] }, _,
    ⟨by decide, by decide +kernel, by decide, by decide, by decide, by decide, by decide, by decide +kernel, by decide,
      by decide, by decide, by decide, by decide, by decide, by decide, by decide⟩, rfl, by decide⟩

theorem witness_StepKeepsTheParameters : ∃ t : State, step { rig with host := [.reset] } = .next t := ⟨_, rfl⟩

/-- Shared by the whole-machine statements: a command that completes, one that fails, and one of each written field. -/
theorem witness_OperandRegisterWriteTable :
    (∃ t : State, exec .txtEnc rig = .next t ∧ t.blen ≠ rig.blen) ∧
    (∃ t : State, exec .txtDec { rig with tlen := 9 } = .next t ∧ t.tlen ≠ 9) ∧
    (∃ t : State, exec (.lsbEmb .aud) { rig with n := 39 } = .next t ∧ ¬ t.succeeded) :=
  ⟨⟨_, rfl, by decide⟩, ⟨_, rfl, by decide⟩, ⟨_, rfl, by decide⟩⟩

theorem witness_OperandRegisterWriteTable_pixExt :
    after (exec .pixExt (extractRig 2 1)) (fun t => decide (t.sw ≠ (extractRig 2 1).sw)) = some true := by decide +kernel

theorem witness_SpaceWriteTable :
    after (exec (.lsbEmb .aud) rig) (fun t => decide (t.out ≠ rig.out)) = some true ∧
    after (exec .pixExt (extractRig 2 1)) (fun t => decide (t.recon ≠ (extractRig 2 1).recon)) = some true ∧
    after (exec .txtDec { rig with txt := .empty }) (fun t => decide (t.txt ≠ .empty)) = some true ∧
    after (exec .txtEnc rig) (fun t => decide (t.bit ≠ rig.bit)) = some true := by decide +kernel

theorem witness_FailureChangesOnlyStatusAndHeaders :
    after (exec (.lsbExt .aud) { rig with car := loaded (headerSamples 9) })
      (fun t => decide (¬ t.succeeded ∧ t.hdr0 ≠ rig.hdr0)) = some true ∧
    after (exec .pixExt (extractRig 1 2)) (fun t => decide (¬ t.succeeded ∧ t.hdr1 ≠ rig.hdr1)) = some true := by
  decide +kernel

/-- For each command, a state in which it completes with success and, where it can fail, one in which it fails. -/
theorem witness_EachCommandRaisesItsKindExactlyWhen :
    after (exec .cfgDelim rig) State.kindField = some 0 ∧
    after (exec .cfgDelim { rig with tlen := 65 }) State.kindField = some 3 ∧
    after (exec (.cfgPix 2 1) rig) State.kindField = some 0 ∧ after (exec (.cfgPix 3 4) rig) State.kindField = some 3 ∧
    after (exec .txtEnc rig) State.kindField = some 0 ∧ after (exec .txtDec rig) State.kindField = some 0 ∧
    after (exec (.lsbEmb .img) rig) State.kindField = some 0 ∧
    after (exec (.lsbEmb .img) { rig with n := 39 }) State.kindField = some 1 ∧
    after (exec (.lsbExt .img) { rig with car := loaded carrierOfA }) State.kindField = some 0 ∧
    after (exec (.lsbExt .img) { rig with car := loaded carrierOfA, n := 39 }) State.kindField = some 2 ∧
    after (exec .pixEmb { rig with sh := 2 }) State.kindField = some 1 ∧
    after (exec .pixExt (extractRig 64 1)) State.kindField = some 0 ∧
    after (exec .pixExt (extractRig 65 1)) State.kindField = some 2 ∧
    after (issueCommand 0x00FFFFFF rig) State.kindField = some 5 := by decide +kernel

theorem witness_WarningOnlyAfterSuccessfulExtract :
    after (exec (.lsbExt .img) { rig with car := loaded carrierOfA }) State.warn = some true := by decide

theorem witness_NothingReadsTheResultRegisters :
    (∃ t : State, exec .txtEnc rig = .next t) ∧ exec .txtEnc { rig with tlen := 2 } = .refused .unwrittenElement :=
  ⟨⟨_, rfl⟩, rfl⟩

theorem witness_DelimiterElementsBeyondDlenAreNotRead :
    Instr.txtEnc ≠ .cfgDelim ∧ (rig.delim.take 5 ++ [0xD800]).take rig.dlen.toNat = rig.delim.take rig.dlen.toNat ∧
    (∃ t : State, exec .txtEnc rig = .next t) ∧ exec .txtEnc { rig with tlen := 2 } = .refused .unwrittenElement :=
  ⟨by decide, by decide, ⟨_, rfl⟩, rfl⟩

theorem witness_ReadingUnwrittenTextOrBitsIsRefused :
    (∃ s : State, 1 < s.tlen.toNat ∧ s.tlen.toNat ≤ s.cfg.capTxt ∧ s.txt.get 1 = none ∧
      s.tlen.toNat ≤ s.cfg.delimMax) ∧
    (∃ s : State, 8 < 8 * (s.blen.toNat / 8) ∧ s.blen.toNat ≤ s.cfg.capBit ∧ s.bit.get 8 = none) ∧
    (∃ s : State, 7 < s.blen.toNat ∧ s.blen.toNat + 32 ≤ s.n.toNat ∧ s.n.toNat ≤ s.cfg.capCar ∧
      s.blen.toNat ≤ s.cfg.capBit ∧ s.bit.get 7 = none) :=
  ⟨⟨{ rig with tlen := 2 }, by decide⟩, ⟨{ rig with blen := 16 }, by decide⟩,
    ⟨{ rig with bit := loaded [0, 1, 0, 0, 0, 0, 0] }, by decide⟩⟩

theorem witness_EmbeddingPreservesTheOtherBits :
    ∃ t : State, rig.car.wf ∧ rig.pixcfgLegal ∧ t.succeeded ∧ exec (.lsbEmb .img) rig = .next t :=
  ⟨_, by decide +kernel, by decide, by decide, rfl⟩

theorem witness_EmbeddingPreservesTheOtherBits_pixEmb : ∃ t : State, t.succeeded ∧ exec .pixEmb rig = .next t :=
  rig_pixEmb.imp fun _ ht => ⟨by rw [State.succeeded, State.kindField, ht.2]; decide, ht.1⟩

theorem spellsLength_of_map {s : State} {m : Word}
    (h : ∀ i, i < 32 → (s.car.get i).map (fun v => v.getLsbD 0) = some (m.getLsbD (31 - i))) : s.spellsLength m :=
  fun i hi => Option.map_eq_some_iff.1 (h i hi)

theorem spellsDimensions_of_map {s : State} {sw sh : Word}
    (h : ∀ k, k < 32 →
      (s.car.get (3 * k + s.channel)).map (fun v => v.getLsbD s.bitDepth) = some (sw.getLsbD (31 - k)) ∧
      (s.car.get (3 * (32 + k) + s.channel)).map (fun v => v.getLsbD s.bitDepth) = some (sh.getLsbD (31 - k))) :
    s.spellsDimensions sw sh :=
  ⟨fun k hk => Option.map_eq_some_iff.1 (h k hk).1, fun k hk => Option.map_eq_some_iff.1 (h k hk).2⟩

/-- In each clause the last element that the command reads is the one that holds no value. -/
theorem witness_ReadingUnwrittenCarrierOrSecretIsRefused :
    (∃ s : State, 39 < s.n.toNat ∧ s.blen.toNat + 32 ≤ s.n.toNat ∧ s.n.toNat ≤ s.cfg.capCar ∧
      s.blen.toNat ≤ s.cfg.capBit ∧ s.car.get 39 = none) ∧
    (∃ s : State, 32 ≤ s.n.toNat ∧ s.n.toNat ≤ s.cfg.capCar ∧ s.car.get 31 = none) ∧
    (∃ (s : State) (m : Word), 39 < 32 + m.toNat ∧ m.toNat + 32 ≤ s.n.toNat ∧ s.n.toNat ≤ s.cfg.capCar ∧ s.car.wf ∧
      s.carFits .img s.n.toNat ∧ s.spellsLength m ∧ s.car.get 39 = none) ∧
    (∃ s : State, s.secretFits ∧ s.imagesWithin ∧ 191 < 3 * s.h.toNat * s.w.toNat ∧ s.car.get 191 = none) ∧
    (∃ s : State, s.secretFits ∧ s.imagesWithin ∧ 2 < 3 * s.sh.toNat * s.sw.toNat ∧ s.sec.get 2 = none) ∧
    (∃ s : State, 64 ≤ s.w.toNat ∧ 1 ≤ s.h.toNat ∧ 3 * s.h.toNat * s.w.toNat ≤ s.cfg.capCar ∧
      s.car.get (3 * 63 + s.channel) = none) ∧
    (∃ (s : State) (sw sh : Word), 0 < sh.toNat ∧ 63 < sw.toNat ∧ 64 ≤ s.w.toNat ∧ sw.toNat ≤ s.w.toNat ∧
      sh.toNat ≤ s.h.toNat ∧ 3 * s.h.toNat * s.w.toNat ≤ s.cfg.capCar ∧ 3 * sh.toNat * sw.toNat ≤ s.cfg.capSec ∧
      s.car.wf ∧ s.carFits .img (3 * s.h.toNat * s.w.toNat) ∧ s.spellsDimensions sw sh ∧
      s.car.get ((0 * s.w.toNat + 63) * 3 + 2) = none) :=
  ⟨⟨{ rig with car := loaded (coverRow.take 39) }, by decide⟩,
    ⟨{ rig with n := 32, car := loaded (coverRow.take 31) }, by decide⟩,
    ⟨{ rig with car := loaded (carrierOfA.take 39) }, 8, by decide, by decide, by decide, by decide,
      carFits_of_samplesFit (by decide) (by decide), spellsLength_of_map (by decide), by decide⟩,
    ⟨{ rig with car := loaded (coverRow.take 191) }, by decide, by decide, by decide, by decide +kernel⟩,
    ⟨{ rig with sec := loaded [0xAB, 0xCD] }, by decide⟩,
    ⟨{ rig with car := loaded (coverRow.take 189) }, by decide, by decide, by decide, by decide +kernel⟩,
    ⟨{ rig with car := loaded ((imageWithHeader 64 1).take 191) }, 64, 1, by decide, by decide, by decide, by decide,
      by decide, by decide, by decide, by decide +kernel, carFits_of_samplesFit (by decide +kernel) (by decide +kernel),
      spellsDimensions_of_map (by decide +kernel), by decide +kernel⟩⟩

/-- In each clause the capacity is one below what is needed. -/
theorem witness_OperandsOverCapacityAreRefused :
    (∃ s : State, s.tlen.toNat ≤ s.cfg.delimMax ∧ s.tlen.toNat = s.cfg.capTxt + 1) ∧
    (∃ s : State, s.blen.toNat = s.cfg.capBit + 1) ∧
    (∃ s : State, s.blen.toNat ≤ s.cfg.capBit ∧ s.bit.holdsAll (8 * (s.blen.toNat / 8)) ∧
      s.blen.toNat / 8 = s.cfg.capTxt + 1) ∧
    (∃ s : State, s.blen.toNat + 32 ≤ s.n.toNat ∧ s.n.toNat = s.cfg.capCar + 1) ∧
    (∃ s : State, s.blen.toNat + 32 ≤ s.n.toNat ∧ s.blen.toNat = s.cfg.capBit + 1) ∧
    (∃ s : State, 32 ≤ s.n.toNat ∧ s.n.toNat = s.cfg.capCar + 1) ∧
    (∃ (s : State) (m : Word) (samples : List Sample), 0 < m.toNat ∧ m.toNat + 32 ≤ s.n.toNat ∧
      s.n.toNat ≤ s.cfg.capCar ∧ s.car.wf ∧ s.carFits .img s.n.toNat ∧ s.spellsLength m ∧
      samples.length = 32 + m.toNat ∧ s.car.holds 0 samples ∧
      (truncateAt s.delimiter (bitsToText ((samples.drop 32).map fun v => v.extractLsb' 0 1))).1.length =
        s.cfg.capTxt + 1) ∧
    (∃ s : State, s.secretFits ∧ 3 * s.h.toNat * s.w.toNat = s.cfg.capCar + 1) ∧
    (∃ s : State, s.secretFits ∧ 3 * s.sh.toNat * s.sw.toNat = s.cfg.capSec + 1) ∧
    (∃ s : State, 64 ≤ s.w.toNat ∧ 1 ≤ s.h.toNat ∧ 3 * s.h.toNat * s.w.toNat = s.cfg.capCar + 1) ∧
    (∃ (s : State) (sw sh : Word), 64 ≤ s.w.toNat ∧ 0 < sw.toNat ∧ 0 < sh.toNat ∧ sw.toNat ≤ s.w.toNat ∧
      sh.toNat ≤ s.h.toNat ∧ 3 * s.h.toNat * s.w.toNat ≤ s.cfg.capCar ∧ s.car.wf ∧
      s.carFits .img (3 * s.h.toNat * s.w.toNat) ∧ s.spellsDimensions sw sh ∧
      3 * sh.toNat * sw.toNat = s.cfg.capSec + 1) :=
  ⟨⟨{ rig with cfg := { Config.chosen with capTxt := 0 } }, by decide⟩,
    ⟨{ rig with cfg := { Config.chosen with capBit := 7 } }, by decide⟩,
    ⟨{ rig with cfg := { Config.chosen with capTxt := 0 } }, by decide⟩,
    ⟨{ rig with cfg := { Config.chosen with capCar := 39 } }, by decide⟩,
    ⟨{ rig with cfg := { Config.chosen with capBit := 7 } }, by decide⟩,
    ⟨{ rig with cfg := { Config.chosen with capCar := 39 } }, by decide⟩,
    ⟨{ rig with car := loaded carrierOfA, cfg := { Config.chosen with capTxt := 0 } }, 8, carrierOfA, by decide,
      by decide, by decide, by decide, carFits_of_samplesFit (by decide) (by decide), spellsLength_of_map (by decide),
      by decide, by decide, by decide⟩,
    ⟨{ rig with cfg := { Config.chosen with capCar := 191 } }, by decide⟩,
    ⟨{ rig with cfg := { Config.chosen with capSec := 2 } }, by decide⟩,
    ⟨{ rig with cfg := { Config.chosen with capCar := 191 } }, by decide⟩,
    ⟨{ extractRig 64 1 with cfg := { Config.chosen with capSec := 191 } }, 64, 1, by decide, by decide, by decide,
      by decide, by decide, by decide, by decide +kernel, carFits_of_samplesFit (by decide +kernel) (by decide +kernel),
      spellsDimensions_of_map (by decide +kernel), by decide⟩⟩

/-- A last sample of 0x100, of a 40-sample carrier and of a 1 by 64 image. -/
theorem witness_TooWideSamplesAreRefused :
    2 ^ 8 ≤ (0x100 : Sample).toNat ∧
    (∃ s : State, s.car.get 39 = some 0x100 ∧ 39 < s.n.toNat ∧ s.n.toNat ≤ s.cfg.capCar ∧
      s.blen.toNat + 32 ≤ s.n.toNat ∧ s.blen.toNat ≤ s.cfg.capBit ∧ s.car.holdsAll s.n.toNat ∧
      s.bit.holdsAll s.blen.toNat) ∧
    (∃ s : State, s.car.get 191 = some 0x100 ∧ 191 < 3 * s.h.toNat * s.w.toNat ∧ s.secretFits ∧ s.imagesWithin ∧
      s.car.holdsAll (3 * s.h.toNat * s.w.toNat) ∧ s.sec.holdsAll (3 * s.sh.toNat * s.sw.toNat) ∧
      ∀ k, k < 64 → (s.car.get (3 * k + s.channel)).isSome = true) :=
  ⟨by decide, ⟨{ rig with car := loaded (coverRow.take 39 ++ [0x100]) }, by decide +kernel⟩,
    ⟨{ rig with car := loaded (coverRow.take 191 ++ [0x100]) }, by decide +kernel⟩⟩

/-- For every command but `CFG.PIX`, a state that meets the invariant in which it is refused. -/
theorem witness_RefusedOnlyForItsReason :
    (∃ s : State, s.Inv ∧ exec .cfgDelim s = .refused .unwrittenElement ∧
      exec .txtEnc s = .refused .unwrittenElement) ∧
    (∃ s : State, s.Inv ∧ exec .txtDec s = .refused .unwrittenElement) ∧
    ∃ s : State, s.Inv ∧ exec (.lsbEmb .img) s = .refused .unwrittenElement ∧
      exec (.lsbExt .img) s = .refused .unwrittenElement ∧ exec .pixEmb s = .refused .unwrittenElement ∧
      exec .pixExt s = .refused .unwrittenElement :=
  ⟨⟨{ rig with tlen := 2 }, { rig_inv with }, rfl, rfl⟩, ⟨{ rig with blen := 16 }, { rig_inv with }, rfl⟩,
    { rig with car := .empty }, { rig_inv with carWf := .nil, carWithin := List.forall_mem_nil _ }, rfl, rfl, rfl, rfl⟩

end Sys2Proof.Tests
end

/-! SUPPORT. What a step can do, and what every step keeps: the parameters and the invariant (O13, O33, O34, O35). -/

namespace Sys2Proof.Machine

/-! ### Inversion of a step: what a host action does when it answers a next state -/

theorem issueCommand_next {word : Word} {s t : State} (h : issueCommand word s = .next t) :
    (∃ i, exec i s = .next t) ∨ t = { s with status := statusWord .illegalCommand false } := by
  unfold issueCommand at h
  split at h
  · exact .inl ⟨_, h⟩
  · exact .inr (raise_eq_next.1 h)

/-- A load, or any host access that only hands on a state, answers that state where the elements exist. -/
theorem hostAccess_next_eq_next {first count cap : Nat} {s t : State} :
    hostAccess first count cap (.next s) = .next t ↔ (count = 0 ∨ first + count ≤ cap) ∧ t = s := by
  rw [hostAccess_eq_next, Host.Outcome.next.injEq, eq_comm (a := s)]

theorem hostReadReg_next {r : HostReg} {s t : State} (h : hostReadReg r s = .next t) : t = s := by
  cases r with
  | delim j => exact (hostAccess_next_eq_next.1 h).2
  | operand _ | pixcfg | dlen | status | hdr0 | hdr1 => exact (Host.Outcome.next.inj h).symm

theorem hostReadElem_next {sp : SpaceName} {i : Nat} {s t : State} (h : hostReadElem sp i s = .next t) : t = s := by
  obtain ⟨-, hr⟩ := hostAccess_eq_next.1 h
  exact (Host.Outcome.next.inj (require_eq_next.1 hr).2).symm

/-- A step is idle, or performs the oldest host action at the state with that action taken off. -/
theorem step_next {s t : State} (h : step s = .next t) :
    t = s ∨ ∃ a rest, performHost a { s with host := rest } = .next t := by
  unfold step at h
  split at h
  · exact .inl (Host.Outcome.next.inj h).symm
  · exact .inr ⟨_, _, h⟩

/-! ### The parameters (log 4) -/

theorem extractText_keeps_cfg {m : Nat} {s t : State} (h : extractText m s = .next t) : t.cfg = s.cfg := by
  obtain ⟨-, rfl⟩ | ⟨-, -, -, _, _, -, -, rfl⟩ := extractText_next.1 h <;> rfl

theorem extractImage_keeps_cfg {sw sh : Nat} {s t : State} (h : extractImage sw sh s = .next t) : t.cfg = s.cfg := by
  obtain ⟨-, rfl⟩ | ⟨-, -, -, -, -, _, -, -, rfl⟩ := extractImage_next.1 h <;> rfl

theorem exec_keeps_cfg {i : Instr} {s t : State} (h : exec i s = .next t) : t.cfg = s.cfg := by
  cases i with
  | cfgDelim => obtain ⟨-, rfl⟩ | ⟨-, -, -, -, rfl⟩ := execCfgDelim_next.1 h <;> rfl
  | cfgPix ch d => obtain ⟨-, rfl⟩ | ⟨-, -, -, rfl⟩ := execCfgPix_next.1 h <;> rfl
  | txtEnc => obtain ⟨-, -, -, -, -, rfl⟩ := execTxtEnc_next.1 h; rfl
  | txtDec => obtain ⟨-, -, -, rfl⟩ := execTxtDec_next.1 h; rfl
  | lsbEmb w => obtain ⟨-, rfl⟩ | ⟨-, -, -, -, -, -, rfl⟩ := execLsbEmb_next.1 h <;> rfl
  | lsbExt w =>
    obtain ⟨-, rfl⟩ | ⟨-, -, -, -, m, -, -, hm⟩ := execLsbExt_next.1 h
    · rfl
    · exact (extractText_keeps_cfg hm :)
  | pixEmb => obtain ⟨-, rfl⟩ | ⟨-, -, -, -, -, -, -, -, -, rfl⟩ := execPixEmb_next.1 h <;> rfl
  | pixExt =>
    obtain ⟨-, rfl⟩ | ⟨-, -, -, -, -, sw, sh, -, -, -, -, hd⟩ := execPixExt_next.1 h
    · rfl
    · exact (extractImage_keeps_cfg hd :)

theorem performHost_keeps_cfg {a : HostAction} {s t : State} (h : performHost a s = .next t) : t.cfg = s.cfg := by
  cases a with
  | command word =>
    obtain ⟨i, hi⟩ | rfl := issueCommand_next h
    · exact exec_keeps_cfg hi
    · rfl
  | writeReg r v =>
    obtain rfl := Host.Outcome.next.inj h
    exact s.setOperand_cfg r v
  | loadCar _ _ | loadOut _ _ | loadSec _ _ | loadRec _ _ | loadTxt _ _ | loadBit _ _ =>
    obtain ⟨-, rfl⟩ := hostAccess_next_eq_next.1 h
    rfl
  | copyOutToCar | reset =>
    obtain rfl := Host.Outcome.next.inj h
    rfl
  | readReg r => rw [hostReadReg_next h]
  | readElem sp i => rw [hostReadElem_next h]

/-- Settles O35: a step is idle or performs one host action, and no action changes the parameters. -/
theorem stepKeepsTheParameters : Obligations.StepKeepsTheParameters := by
  intro s t h
  obtain rfl | ⟨a, rest, ha⟩ := step_next h
  · rfl
  · exact (performHost_keeps_cfg ha :)

/-! ### Reset (10_state.md R33) -/

@[simp] theorem State.resetWith_channel (c : Config) : (State.resetWith c).channel = 0 := by
  rw [State.channel, State.resetWith_pixcfg]
  decide

@[simp] theorem State.resetWith_bitDepth (c : Config) : (State.resetWith c).bitDepth = 4 := by
  rw [State.bitDepth, State.resetWith_pixcfg]
  decide

@[simp] theorem State.resetWith_delimiter (c : Config) : (State.resetWith c).delimiter = defaultDelimiter := rfl

@[simp] theorem Space.empty_wf {w : Nat} : (Space.empty : Space w).wf := .nil

@[simp] theorem Space.empty_within {w : Nat} (cap : Nat) : (Space.empty : Space w).within cap := List.forall_mem_nil _

theorem Config.chosen_wf : Config.chosen.wf := by decide

theorem State.resetWith_pixcfgLegal (c : Config) : (State.resetWith c).pixcfgLegal :=
  ⟨by simp, by simp, by simp, by rw [State.resetWith_pixcfg]; decide⟩

/-- The default delimiter's 5 elements are why `DELIM_MAX` must be at least 5 (R7). -/
theorem State.resetWith_delimLegal {c : Config} (hc : c.wf) : (State.resetWith c).delimLegal := by
  refine ⟨?_, hc, by rw [State.resetWith_delimiter]; decide⟩
  have hlen : defaultDelimiter.length = 5 := rfl
  simp only [State.resetWith_delim, State.resetWith_cfg, List.length_append, List.length_replicate, hlen]
  omega

theorem State.resetWith_inv {c : Config} (hc : c.wf) : (State.resetWith c).Inv where
  cfgWf := hc
  carWf := Space.empty_wf
  outWf := Space.empty_wf
  secWf := Space.empty_wf
  reconWf := Space.empty_wf
  txtWf := Space.empty_wf
  bitWf := Space.empty_wf
  carWithin := Space.empty_within _
  outWithin := Space.empty_within _
  secWithin := Space.empty_within _
  reconWithin := Space.empty_within _
  txtWithin := Space.empty_within _
  bitWithin := Space.empty_within _
  pixcfg := State.resetWith_pixcfgLegal c
  delim := State.resetWith_delimLegal hc
  status := List.mem_cons_self

/-- Settles O33. -/
theorem resetMeetsTheInvariant : Obligations.ResetMeetsTheInvariant :=
  ⟨fun _ hc => State.resetWith_inv hc, State.resetWith_inv Config.chosen_wf⟩

theorem step_of_reset {s : State} {rest : List HostAction} (h : s.host = .reset :: rest) :
    step s = .next { State.resetWith s.cfg with host := rest } := by
  rw [step, h]
  rfl

/-- Settles O13. -/
theorem resetConstructsTheDefaults : Obligations.ResetConstructsTheDefaults := by
  refine ⟨fun c _ => ?_, ⟨Config.chosen, Config.chosen_wf, rfl⟩, fun s rest => step_of_reset⟩
  simp [defaultDelimiter]

/-! ### The invariant -/

theorem State.statusLegal_of_success {s : State} {warn : Bool} (h : s.status = statusWord .success warn) :
    s.statusLegal := by
  cases warn <;> simp [State.statusLegal, h]

theorem State.statusLegal_of_failure {s : State} {k : Kind} (hk : k ≠ .carrierLoadError)
    (h : s.status = statusWord k false) : s.statusLegal := by
  cases k <;> simp_all [State.statusLegal]

theorem State.Inv.raise {s : State} {k : Kind} (h : s.Inv) (hk : k ≠ .carrierLoadError) :
    State.Inv { s with status := statusWord k false } :=
  { h with status := State.statusLegal_of_failure hk rfl }

theorem State.pixcfgLegal_of_pixcfgWord {s : State} {ch d : Nat} (hs : s.pixcfg = pixcfgWord ch d) (hd : 1 ≤ d)
    (hd' : d ≤ 4) (hch : ch ≤ 2) : s.pixcfgLegal := by
  have hc := pixcfgWord_channel ch (by omega) d (by omega)
  have hb := pixcfgWord_bitDepth ch (by omega) d (by omega)
  have hr := pixcfgWord_reserved ch (by omega) d (by omega)
  rw [State.pixcfgLegal, State.channel, State.bitDepth, hs, hc, hb]
  exact ⟨hch, hd, hd', hr⟩

/-- `CFG.DELIM` puts the text at the front of the register file, which is then the delimiter (R130). -/
theorem delimLegal_of_text {s : State} (hs : s.delimLegal) (hmax : s.tlen.toNat ≤ s.cfg.delimMax)
    (hscalar : s.text.all isScalar = true) :
    State.delimLegal { s with delim := s.text ++ s.delim.drop s.tlen.toNat, dlen := s.tlen } := by
  obtain ⟨hlen, -, -⟩ := hs
  refine ⟨?_, hmax, ?_⟩
  · simp only [List.length_append, State.text_length, List.length_drop, hlen]
    omega
  · rwa [State.delimiter, List.take_left' s.text_length]

theorem extractText_keeps_inv {m : Nat} {s t : State} (hs : s.Inv) (h : extractText m s = .next t) : t.Inv := by
  obtain ⟨-, rfl⟩ | ⟨-, -, -, r, warn, -, hr, rfl⟩ := extractText_next.1 h
  · exact hs.raise (by decide)
  · exact { hs with
      txtWf := Space.store_wf hs.txtWf 0 r
      txtWithin := Space.store_within hs.txtWithin (.inr (by simpa using hr))
      status := State.statusLegal_of_success rfl }

theorem extractImage_keeps_inv {sw sh : Nat} {s t : State} (hs : s.Inv) (h : extractImage sw sh s = .next t) :
    t.Inv := by
  obtain ⟨-, rfl⟩ | ⟨-, -, -, -, hcap, idxs, hidx, -, rfl⟩ := extractImage_next.1 h
  · exact hs.raise (by decide)
  · exact { hs with
      reconWf := Space.store_wf hs.reconWf 0 _
      reconWithin := Space.store_within hs.reconWithin (.inr (by simpa [hidx] using hcap))
      status := State.statusLegal_of_success rfl }

theorem exec_keeps_inv {i : Instr} {s t : State} (hs : s.Inv) (h : exec i s = .next t) : t.Inv := by
  cases i with
  | cfgDelim =>
    obtain ⟨-, rfl⟩ | ⟨hmax, -, -, hscalar, rfl⟩ := execCfgDelim_next.1 h
    · exact hs.raise (by decide)
    · exact { hs with
        delim := delimLegal_of_text hs.delim hmax hscalar
        status := State.statusLegal_of_success rfl }
  | cfgPix ch d =>
    obtain ⟨-, rfl⟩ | ⟨hd, hd', hch, rfl⟩ := execCfgPix_next.1 h
    · exact hs.raise (by decide)
    · exact { hs with
        pixcfg := State.pixcfgLegal_of_pixcfgWord rfl hd hd' hch
        status := State.statusLegal_of_success rfl }
  | txtEnc =>
    obtain ⟨-, -, -, -, hcap, rfl⟩ := execTxtEnc_next.1 h
    exact { hs with
      bitWf := Space.store_wf hs.bitWf 0 _
      bitWithin := Space.store_within hs.bitWithin (.inr (by simpa using hcap))
      status := State.statusLegal_of_success rfl }
  | txtDec =>
    obtain ⟨-, -, hcap, rfl⟩ := execTxtDec_next.1 h
    exact { hs with
      txtWf := Space.store_wf hs.txtWf 0 _
      txtWithin := Space.store_within hs.txtWithin (.inr (by simpa using hcap))
      status := State.statusLegal_of_success rfl }
  | lsbEmb w =>
    obtain ⟨-, rfl⟩ | ⟨-, hcap, -, -, -, -, rfl⟩ := execLsbEmb_next.1 h
    · exact hs.raise (by decide)
    · exact { hs with
        outWf := Space.store_wf hs.outWf 0 _
        outWithin := Space.store_within hs.outWithin (.inr (by simpa using hcap))
        status := State.statusLegal_of_success rfl }
  | lsbExt w =>
    obtain ⟨-, rfl⟩ | ⟨-, -, -, -, m, -, -, hm⟩ := execLsbExt_next.1 h
    · exact hs.raise (by decide)
    · refine extractText_keeps_inv ?_ hm
      exact { hs with }
  | pixEmb =>
    obtain ⟨-, rfl⟩ | ⟨-, -, -, -, hcap, -, -, -, -, rfl⟩ := execPixEmb_next.1 h
    · exact hs.raise (by decide)
    · exact { hs with
        outWf := Space.store_wf hs.outWf 0 _
        outWithin := Space.store_within hs.outWithin (.inr (by simpa using hcap))
        status := State.statusLegal_of_success rfl }
  | pixExt =>
    obtain ⟨-, rfl⟩ | ⟨-, -, -, -, -, sw, sh, -, -, -, -, hd⟩ := execPixExt_next.1 h
    · exact hs.raise (by decide)
    · refine extractImage_keeps_inv ?_ hd
      exact { hs with }

/-- A host load of elements that exist keeps a space within its capacity. -/
theorem Space.store_within_of_access {w : Nat} {m : Space w} {cap first : Nat} {vals : List (BitVec w)}
    (h : m.within cap) (ha : vals.length = 0 ∨ first + vals.length ≤ cap) : (m.store first vals).within cap :=
  Space.store_within h (ha.imp_left List.length_eq_zero_iff.1)

theorem State.Inv.setOperand {s : State} (hs : s.Inv) (r : OperandReg) (v : Word) : (s.setOperand r v).Inv := by
  cases r <;> exact { hs with }

theorem performHost_keeps_inv {a : HostAction} {s t : State} (hs : s.Inv) (h : performHost a s = .next t) : t.Inv := by
  cases a with
  | command word =>
    obtain ⟨i, hi⟩ | rfl := issueCommand_next h
    · exact exec_keeps_inv hs hi
    · exact hs.raise (by decide)
  | writeReg r v =>
    obtain rfl := Host.Outcome.next.inj h
    exact hs.setOperand r v
  | loadCar first vals =>
    obtain ⟨ha, rfl⟩ := hostAccess_next_eq_next.1 h
    exact { hs with
      carWf := Space.store_wf hs.carWf first vals, carWithin := Space.store_within_of_access hs.carWithin ha }
  | loadOut first vals =>
    obtain ⟨ha, rfl⟩ := hostAccess_next_eq_next.1 h
    exact { hs with
      outWf := Space.store_wf hs.outWf first vals, outWithin := Space.store_within_of_access hs.outWithin ha }
  | loadSec first vals =>
    obtain ⟨ha, rfl⟩ := hostAccess_next_eq_next.1 h
    exact { hs with
      secWf := Space.store_wf hs.secWf first vals, secWithin := Space.store_within_of_access hs.secWithin ha }
  | loadRec first vals =>
    obtain ⟨ha, rfl⟩ := hostAccess_next_eq_next.1 h
    exact { hs with
      reconWf := Space.store_wf hs.reconWf first vals, reconWithin := Space.store_within_of_access hs.reconWithin ha }
  | loadTxt first vals =>
    obtain ⟨ha, rfl⟩ := hostAccess_next_eq_next.1 h
    exact { hs with
      txtWf := Space.store_wf hs.txtWf first vals, txtWithin := Space.store_within_of_access hs.txtWithin ha }
  | loadBit first vals =>
    obtain ⟨ha, rfl⟩ := hostAccess_next_eq_next.1 h
    exact { hs with
      bitWf := Space.store_wf hs.bitWf first vals, bitWithin := Space.store_within_of_access hs.bitWithin ha }
  | copyOutToCar =>
    obtain rfl := Host.Outcome.next.inj h
    exact { hs with
      carWf := Space.overwriteWith_wf hs.carWf s.out
      carWithin := Space.overwriteWith_within hs.carWithin hs.outWithin }
  | readReg r => rwa [hostReadReg_next h]
  | readElem sp i => rwa [hostReadElem_next h]
  | reset =>
    obtain rfl := Host.Outcome.next.inj h
    exact { State.resetWith_inv hs.cfgWf with }

/-- Settles O34: a step is idle or performs one host action, and every action keeps the invariant; the pending actions
are no part of it. -/
theorem stepKeepsTheInvariant : Obligations.StepKeepsTheInvariant := by
  intro s t hs h
  obtain rfl | ⟨a, rest, ha⟩ := step_next h
  · exact hs
  · refine performHost_keeps_inv ?_ ha
    exact { hs with }

end Sys2Proof.Machine

/-! SUPPORT. The helper functions of 00_scope.md and the conditions under which a command is refused (O14, O15, O16, O18,
O47, O49). -/

namespace Sys2Proof.Machine

/-! ### `bits_msb` and `val_msb` (00_scope.md R10) -/

theorem bitsMsb_getElem?_mod {v n i : Nat} (h : i < n) :
    (bitsMsb v n)[i]? = some (BitVec.ofNat 1 ((v >>> (n - 1 - i)) % 2)) := by
  rw [bitsMsb_getElem? h, Option.some.injEq]
  exact BitVec.eq_of_toNat_eq (by simp)

/-- Bit `n - 1 - i` of the value stands at position `i`, so the two sides agree bit by bit. -/
theorem valMsb_bitsMsb {v n : Nat} (hv : v < 2 ^ n) : valMsb (bitsMsb v n) = v := by
  refine Nat.eq_of_testBit_eq fun k => ?_
  rcases Nat.lt_or_ge k n with hk | hk
  · have hbit := testBit_valMsb (bitsMsb v n) (i := n - 1 - k) (by rw [bitsMsb_length]; omega)
    rw [bitsMsb_length, show n - 1 - (n - 1 - k) = k by omega, List.getD_eq_getElem?_getD,
      bitsMsb_getElem? (by omega), show n - 1 - (n - 1 - k) = k by omega, ofNat_one_eq_ofBool] at hbit
    simpa using hbit
  · have hpow : 2 ^ n ≤ 2 ^ k := Nat.pow_le_pow_right (by decide) hk
    have hlt := valMsb_lt (bitsMsb v n)
    rw [bitsMsb_length] at hlt
    rw [Nat.testBit_lt_two_pow (hlt.trans_le hpow), Nat.testBit_lt_two_pow (hv.trans_le hpow)]

theorem bitsMsb_valMsb (b : List Bit) : bitsMsb (valMsb b) b.length = b := by
  refine List.ext_getElem? fun i => ?_
  rcases Nat.lt_or_ge i b.length with hi | hi
  · rw [bitsMsb_getElem? hi, ofNat_one_eq_ofBool, testBit_valMsb b hi, List.getD_eq_getElem?_getD,
      List.getElem?_eq_getElem hi, Option.getD_some]
    exact congrArg some (BitVec.eq_of_getLsbD_eq fun k hk => by simp [Nat.lt_one_iff.1 hk])
  · rw [List.getElem?_eq_none (by rwa [bitsMsb_length]), List.getElem?_eq_none hi]

theorem valMsb_eq_sum (b : List Bit) :
    valMsb b = ((List.range b.length).map fun i => (b.getD i 0).toNat * 2 ^ (b.length - 1 - i)).sum := by
  induction b with
  | nil => rfl
  | cons x xs ih =>
    have hexp : ∀ i, xs.length - 1 - i = xs.length - (i + 1) := fun i => by omega
    simp only [valMsb, ih, List.length_cons, List.range_succ_eq_map, List.map_cons, List.map_map, List.sum_cons,
      List.getD_cons_zero, Function.comp_def, Nat.succ_eq_add_one, List.getD_cons_succ, hexp, Nat.add_sub_cancel,
      Nat.sub_zero]

/-- Settles O14. -/
theorem valMsbInvertsBitsMsb : Obligations.ValMsbInvertsBitsMsb :=
  ⟨fun _ _ hv => ⟨bitsMsb_length _ _, valMsb_bitsMsb hv, fun _ hi => bitsMsb_getElem?_mod hi⟩,
    fun b => ⟨valMsb_lt b, bitsMsb_valMsb b, valMsb_eq_sum b⟩⟩

/-! ### UTF-8 (00_scope.md R11) -/

theorem isScalar_iff {cp : CodePoint} :
    isScalar cp = true ↔ cp.toNat ≤ 0xD7FF ∨ (0xE000 ≤ cp.toNat ∧ cp.toNat ≤ 0x10FFFF) := by
  simp [isScalar]

/-- A byte of R11's table: a marker whose low `len` bits are clear, filled with a field of the code point, is their
sum. -/
theorem marker_or_field (cp : CodePoint) {marker : Byte} {start len : Nat} (hlen : len ≤ 8)
    (hm : 2 ^ len ∣ marker.toNat) :
    marker ||| (cp.extractLsb' start len).setWidth 8 =
      BitVec.ofNat 8 (marker.toNat + cp.toNat / 2 ^ start % 2 ^ len) := by
  obtain ⟨a, ha⟩ := hm
  have hf : cp.toNat / 2 ^ start % 2 ^ len < 2 ^ len := Nat.mod_lt _ (by positivity)
  have h8 : cp.toNat / 2 ^ start % 2 ^ len < 2 ^ 8 := hf.trans_le (Nat.pow_le_pow_right (by decide) hlen)
  apply BitVec.eq_of_toNat_eq
  rw [BitVec.toNat_or, BitVec.toNat_setWidth, BitVec.extractLsb'_toNat, BitVec.toNat_ofNat,
    Nat.shiftRight_eq_div_pow, Nat.mod_eq_of_lt h8, ha, Nat.two_pow_add_eq_or_of_lt hf,
    Nat.mod_eq_of_lt (Nat.or_lt_two_pow (ha ▸ marker.isLt) h8)]

/-- A first byte of R11's table: the field is all that is left of the code point. -/
theorem marker_or_top_field (cp : CodePoint) {marker : Byte} {start len : Nat} (hlen : len ≤ 8)
    (hm : 2 ^ len ∣ marker.toNat) (htop : cp.toNat / 2 ^ start < 2 ^ len) :
    marker ||| (cp.extractLsb' start len).setWidth 8 = BitVec.ofNat 8 (marker.toNat + cp.toNat / 2 ^ start) := by
  rw [marker_or_field cp hlen hm, Nat.mod_eq_of_lt htop]

/-- A continuation byte of R11's table. -/
theorem continuation_byte (cp : CodePoint) (start : Nat) :
    (0x80 : Byte) ||| (cp.extractLsb' start 6).setWidth 8 = BitVec.ofNat 8 (0x80 + cp.toNat / 2 ^ start % 64) :=
  marker_or_field cp (by decide) (by decide)

theorem last_continuation_byte (cp : CodePoint) :
    (0x80 : Byte) ||| (cp.extractLsb' 0 6).setWidth 8 = BitVec.ofNat 8 (0x80 + cp.toNat % 64) := by
  rw [continuation_byte, Nat.pow_zero, Nat.div_one]

theorem utf8_of_one_byte {cp : CodePoint} (h : cp.toNat ≤ 0x7F) : utf8 cp = [BitVec.ofNat 8 cp.toNat] := by
  rw [utf8, if_pos h]
  exact congrArg (fun b => [b]) (BitVec.eq_of_toNat_eq (by simp))

theorem utf8_of_two_bytes {cp : CodePoint} (h : 0x80 ≤ cp.toNat) (h' : cp.toNat ≤ 0x7FF) :
    utf8 cp = [BitVec.ofNat 8 (0xC0 + cp.toNat / 64), BitVec.ofNat 8 (0x80 + cp.toNat % 64)] := by
  have hfirst : (0xC0 : Byte) ||| (cp.extractLsb' 6 5).setWidth 8 = BitVec.ofNat 8 (0xC0 + cp.toNat / 64) :=
    marker_or_top_field cp (by decide) (by decide) (by omega)
  rw [utf8, if_neg (by omega), if_pos h', hfirst, last_continuation_byte]

theorem utf8_of_three_bytes {cp : CodePoint} (h : 0x800 ≤ cp.toNat) (h' : cp.toNat ≤ 0xFFFF) :
    utf8 cp = [BitVec.ofNat 8 (0xE0 + cp.toNat / 4096), BitVec.ofNat 8 (0x80 + cp.toNat / 64 % 64),
      BitVec.ofNat 8 (0x80 + cp.toNat % 64)] := by
  have hfirst : (0xE0 : Byte) ||| (cp.extractLsb' 12 4).setWidth 8 = BitVec.ofNat 8 (0xE0 + cp.toNat / 4096) :=
    marker_or_top_field cp (by decide) (by decide) (by omega)
  rw [utf8, if_neg (by omega), if_neg (by omega), if_pos h', hfirst, continuation_byte, last_continuation_byte]
  rfl

theorem utf8_of_four_bytes {cp : CodePoint} (h : 0x10000 ≤ cp.toNat) :
    utf8 cp = [BitVec.ofNat 8 (0xF0 + cp.toNat / 262144), BitVec.ofNat 8 (0x80 + cp.toNat / 4096 % 64),
      BitVec.ofNat 8 (0x80 + cp.toNat / 64 % 64), BitVec.ofNat 8 (0x80 + cp.toNat % 64)] := by
  have hlt : cp.toNat < 2 ^ 21 := cp.isLt
  have hfirst : (0xF0 : Byte) ||| (cp.extractLsb' 18 3).setWidth 8 = BitVec.ofNat 8 (0xF0 + cp.toNat / 262144) :=
    marker_or_top_field cp (by decide) (by decide) (by omega)
  rw [utf8, if_neg (by omega), if_neg (by omega), if_neg (by omega), hfirst, continuation_byte cp 12,
    continuation_byte cp 6, last_continuation_byte]
  rfl

/-- Settles O15. -/
theorem utf8FollowsItsTable : Obligations.Utf8FollowsItsTable :=
  ⟨fun _ _ => ⟨utf8_of_one_byte, utf8_of_two_bytes, utf8_of_three_bytes, utf8_of_four_bytes⟩,
    fun _ => List.flatMap_def, fun _ => isScalar_iff⟩

/-! ### `find` (00_scope.md R12) -/

theorem find_eq_some_iff {hay needle : List CodePoint} {p : Nat} :
    find hay needle = some p ↔
      p + needle.length ≤ hay.length ∧ (hay.drop p).take needle.length = needle ∧
        ∀ q, q < p → (hay.drop q).take needle.length ≠ needle := by
  have hrange : p < hay.length + 1 - needle.length ↔ p + needle.length ≤ hay.length := by omega
  simp only [find, List.find?_range_eq_some, decide_eq_true_eq, Bool.not_eq_true', decide_eq_false_iff_not,
    List.mem_range, hrange]
  tauto

theorem find_eq_none_iff {hay needle : List CodePoint} :
    find hay needle = none ↔
      ∀ p, p + needle.length ≤ hay.length → (hay.drop p).take needle.length ≠ needle := by
  have hrange : ∀ p, p < hay.length + 1 - needle.length ↔ p + needle.length ≤ hay.length := fun p => by omega
  simp only [find, List.find?_range_eq_none, Bool.not_eq_true', decide_eq_false_iff_not, hrange, ne_eq]

theorem find_nil (hay : List CodePoint) : find hay [] = some 0 :=
  find_eq_some_iff.2 ⟨Nat.zero_le _, List.take_zero, fun _ hq => absurd hq (Nat.not_lt_zero _)⟩

/-- Settles O16. -/
theorem findGivesTheFirstOccurrence : Obligations.FindGivesTheFirstOccurrence :=
  fun hay _ => ⟨fun _ => find_eq_some_iff, find_eq_none_iff, find_nil hay⟩

/-! ### The length of the bitstream (41_text_bit_codec.md R111) -/

theorem utf8_bit_count (cp : CodePoint) :
    8 * (utf8 cp).length =
      if cp.toNat ≤ 0x7F then 8 else if cp.toNat ≤ 0x7FF then 16 else if cp.toNat ≤ 0xFFFF then 24 else 32 := by
  unfold utf8
  split_ifs <;> rfl

theorem utf8s_bit_count (t : List CodePoint) :
    8 * (utf8s t).length =
      (t.map fun cp =>
        if cp.toNat ≤ 0x7F then 8 else if cp.toNat ≤ 0x7FF then 16 else if cp.toNat ≤ 0xFFFF then 24 else 32).sum := by
  simp only [utf8s, List.length_flatMap, ← utf8_bit_count, List.sum_map_mul_left]

/-- Settles O18: the bitstream is shorter than `2^32` bits, so `BLEN` is its length, 8 bits for each UTF-8 byte. -/
theorem txtEncLengthByCodePoint : Obligations.TxtEncLengthByCodePoint := by
  intro s t h
  obtain ⟨-, -, -, hlt, -, rfl⟩ := execTxtEnc_next.1 h
  have hblen : (BitVec.ofNat 32 s.encodedText.length).toNat = 8 * (utf8s (s.text ++ s.delimiter)).length := by
    rw [BitVec.toNat_ofNat, Nat.mod_eq_of_lt hlt, State.encodedText_length]
  exact ⟨hblen ▸ Nat.mul_mod_right 8 _, hblen.trans (utf8s_bit_count _)⟩

/-! ### Premises of a command, as elements -/

theorem Space.exists_unwritten_of_range {w : Nat} {m : Space w} {n : Nat} (h : m.written (List.range n) = false) :
    ∃ i, i < n ∧ m.get i = none := by
  simpa using Space.written_eq_false_iff.1 h

theorem exists_tooWide {w : SampleWidth} {car : Space 16} {n : Nat} (hcar : car.wf) (h : samplesFit w car n = false) :
    w = .img ∧ ∃ j v, j < n ∧ car.get j = some v ∧ 2 ^ 8 ≤ v.toNat := by
  obtain ⟨hw, j, hj, v, hv⟩ := (samplesFit_eq_false_iff hcar).1 h
  exact ⟨hw, j, v, hj, hv⟩

/-- U1: the element of TXT that makes a text refused. -/
theorem State.exists_nonScalar_of_text {s : State} (hw : s.txt.written (List.range s.tlen.toNat) = true)
    (h : s.text.all isScalar = false) :
    ∃ q v, q < s.tlen.toNat ∧ s.txt.get q = some v ∧ isScalar v = false := by
  obtain ⟨v, hmem, hv⟩ := List.all_eq_false.1 h
  obtain ⟨q, hq, rfl⟩ := List.mem_map.1 hmem
  have hq := List.mem_range.1 hq
  obtain ⟨u, hu⟩ := Space.written_range_iff.1 hw q hq
  rw [Space.read_eq_of_get hu, Bool.not_eq_true] at hv
  exact ⟨q, u, hq, hu, hv⟩

theorem Space.get_of_holds {w : Nat} {m : Space w} {xs : List (BitVec w)} (h : m.holds 0 xs) {i : Nat}
    (hi : i < xs.length) : m.get i = some xs[i] := by
  have hget := h i hi
  rwa [Nat.zero_add, List.getElem?_eq_getElem hi] at hget

theorem Space.written_range'_of_holds {w : Nat} {m : Space w} {xs : List (BitVec w)} (h : m.holds 0 xs)
    {first count : Nat} (hlen : xs.length = first + count) : m.written (List.range' first count) = true := by
  refine Space.written_iff.2 fun i hi => ⟨_, Space.get_of_holds h ?_⟩
  have := List.mem_range'_1.1 hi
  omega

/-- The payload bits of a carrier whose samples the host has set up. -/
theorem carrierBits_of_holds {car : Space 16} {samples : List Sample} (h : car.holds 0 samples) {first count : Nat}
    (hlen : samples.length = first + count) : carrierBits car first count = (samples.drop first).map bit0 := by
  refine List.ext_getElem? fun i => ?_
  rcases Nat.lt_or_ge i count with hi | hi
  · have hi' : first + i < samples.length := by omega
    rw [carrierBits_getElem? car first hi, Space.read_eq_of_get (Space.get_of_holds h hi'), List.getElem?_map,
      List.getElem?_drop, List.getElem?_eq_getElem hi', Option.map_some]
  · rw [List.getElem?_eq_none (by rwa [carrierBits_length]),
      List.getElem?_eq_none (by rw [List.length_map, List.length_drop]; omega)]

/-! ### Operands and results above a capacity (93_implementation_defined.md U2) -/

/-- Settles O47: each clause is the capacity case of the command's refusals, after the premises judged before it. -/
theorem operandsOverCapacityAreRefused : Obligations.OperandsOverCapacityAreRefused := by
  intro s
  refine ⟨fun hmax htxt => execCfgDelim_refused.2 ⟨hmax, .inl ⟨htxt, rfl⟩⟩,
    fun htxt => execTxtEnc_refused.2 (.inl ⟨htxt, rfl⟩), fun hbit => execTxtDec_refused.2 (.inl ⟨hbit, rfl⟩),
    ?txtDecResult, fun w hfit hcap => execLsbEmb_refused.2 ⟨hfit, .inl ⟨by omega, rfl⟩⟩,
    fun w hn hcar => execLsbExt_refused.2 ⟨hn, .inl ⟨hcar, rfl⟩⟩, ?lsbExtResult,
    fun hfit hcap => execPixEmb_refused.2 ⟨hfit, .inl ⟨by omega, rfl⟩⟩,
    fun hw hh hcar => execPixExt_refused.2 ⟨⟨hw, hh⟩, .inl ⟨hcar, rfl⟩⟩, ?pixExtResult⟩
  case txtDecResult =>
    intro hbit hall htxt
    have hwritten := Space.written_range_iff.2 fun i hi => Option.isSome_iff_exists.1 (hall i hi)
    exact execTxtDec_refused.2 (.inr ⟨hbit, .inr ⟨hwritten, htxt, rfl⟩⟩)
  case lsbExtResult =>
    intro w m samples hm hmn hcap hwf hfits hspell hlen hholds htxt
    have hpayload : carrierBits s.car 32 m.toNat = (samples.drop 32).map fun v => v.extractLsb' 0 1 :=
      carrierBits_of_holds hholds hlen
    refine execLsbExt_refused.2 ⟨by omega, .inr ⟨hcap, .inr ⟨written_of_spellsLength hspell,
      .inr ⟨(samplesFit_iff hwf).2 hfits, m.toNat, (valMsb_of_spellsLength hspell).symm, ⟨hm, hmn⟩,
        .inr ⟨Space.written_range'_of_holds hholds hlen, ?_, rfl⟩⟩⟩⟩⟩
    rwa [hpayload]
  case pixExtResult =>
    intro sw sh hw hsw hsh hsww hshh hcap hwf hfits hspell hsec
    obtain ⟨hvsw, hvsh⟩ := valMsb_of_spellsDimensions hspell
    exact execPixExt_refused.2 ⟨⟨hw, by omega⟩, .inr ⟨hcap, .inr ⟨written_of_spellsDimensions hspell,
      .inr ⟨(samplesFit_iff hwf).2 hfits, sw.toNat, sh.toNat, hvsw.symm, hvsh.symm, ⟨hsw, hsh, hsww, hshh⟩,
        .inl ⟨hsec, rfl⟩⟩⟩⟩⟩

/-! ### The reasons for which a command is refused (93_implementation_defined.md Part 1) -/

/-- `m` is the length that `LSB.EXT` reads from the header (R133). -/
theorem execLsbExt_refused_reason {w : SampleWidth} {s : State} {r : Refusal} {m : Nat} (hs : s.Inv)
    (hm : m = valMsb (carrierBits s.car 0 32)) (h : execLsbExt w s = .refused r) :
    (r = .overCapacity ∧
      (s.cfg.capCar < s.n.toNat ∨
        s.cfg.capTxt < (truncateAt s.delimiter (bitsToText (carrierBits s.car 32 m))).1.length)) ∨
    (r = .unwrittenElement ∧ ∃ j, (j < 32 ∨ j < 32 + m) ∧ j < s.n.toNat ∧ s.car.get j = none) ∨
    (r = .sampleTooWide ∧ w = .img ∧ ∃ j v, j < s.n.toNat ∧ s.car.get j = some v ∧ 2 ^ 8 ≤ v.toNat) := by
  obtain ⟨hn, ⟨hcap, hr⟩ | ⟨-, ⟨hun, hr⟩ | ⟨-, ⟨hwide, hr⟩ | ⟨-, _, hm', ⟨-, hmn⟩, hread⟩⟩⟩⟩ :=
    execLsbExt_refused.1 h
  · exact .inl ⟨hr, .inl hcap⟩
  · obtain ⟨j, hj, hnone⟩ := Space.exists_unwritten_of_range hun
    exact .inr (.inl ⟨hr, j, .inl hj, by omega, hnone⟩)
  · exact .inr (.inr ⟨hr, exists_tooWide hs.carWf hwide⟩)
  · obtain rfl := hm'.trans hm.symm
    obtain ⟨hun, hr⟩ | ⟨-, hcap, hr⟩ := hread
    · obtain ⟨j, hj, hnone⟩ := Space.written_eq_false_iff.1 hun
      obtain ⟨-, hj⟩ := List.mem_range'_1.1 hj
      exact .inr (.inl ⟨hr, j, .inr hj, by omega, hnone⟩)
    · exact .inl ⟨hr, .inr hcap⟩

/-- `sw` and `sh` are the dimensions that `PIX.EXT` reads from the header (R163). -/
theorem execPixExt_refused_reason {s : State} {r : Refusal} {sw sh : Nat} (hs : s.Inv)
    (hsw : sw = valMsb (s.imageHeader.take 32)) (hsh : sh = valMsb (s.imageHeader.drop 32))
    (h : execPixExt s = .refused r) :
    (r = .overCapacity ∧ (s.cfg.capCar < 3 * s.h.toNat * s.w.toNat ∨ s.cfg.capSec < 3 * sh * sw)) ∨
    (r = .unwrittenElement ∧ ∃ y x c, s.car.get ((y * s.w.toNat + x) * 3 + c) = none ∧
      ((y = 0 ∧ x < 64 ∧ c = s.channel) ∨ (y < sh ∧ x < sw ∧ c < 3 ∧ sh ≤ s.h.toNat ∧ sw ≤ s.w.toNat))) ∨
    (r = .sampleTooWide ∧ ∃ j v, j < 3 * s.h.toNat * s.w.toNat ∧ s.car.get j = some v ∧ 2 ^ 8 ≤ v.toNat) := by
  obtain ⟨-, ⟨hcap, hr⟩ | ⟨-, ⟨hun, hr⟩ | ⟨-, ⟨hwide, hr⟩ | ⟨-, _, _, hsw', hsh', ⟨-, -, hw, hh⟩, hread⟩⟩⟩⟩ :=
    execPixExt_refused.1 h
  · exact .inl ⟨hr, .inl hcap⟩
  · obtain ⟨a, ha, hnone⟩ := Space.written_eq_false_iff.1 hun
    obtain ⟨k, hk, rfl⟩ := List.mem_map.1 ha
    exact .inr (.inl ⟨hr, 0, k, s.channel, hnone, .inl ⟨rfl, List.mem_range.1 hk, rfl⟩⟩)
  · exact .inr (.inr ⟨hr, (exists_tooWide hs.carWf hwide).2⟩)
  · obtain rfl := hsw'.trans hsw.symm
    obtain rfl := hsh'.trans hsh.symm
    obtain ⟨hcap, hr⟩ | ⟨-, hun, hr⟩ := hread
    · exact .inl ⟨hr, .inr hcap⟩
    · obtain ⟨a, ha, hnone⟩ := Space.written_eq_false_iff.1 hun
      obtain ⟨⟨y, x, c⟩, hp, rfl⟩ := List.mem_map.1 ha
      obtain ⟨hy, hx, hc⟩ := mem_pixels.1 hp
      exact .inr (.inl ⟨hr, y, x, c, hnone, .inr ⟨hy, hx, hc, hh, hw⟩⟩)

/-- Settles O49: each command's refusals, with the failed premise read as the element that fails it. -/
theorem refusedOnlyForItsReason : Obligations.RefusedOnlyForItsReason := by
  intro s r hs
  refine ⟨fun h => ?cfgDelim, fun ch d => execCfgPix_ne_refused ch d s r, fun h => ?txtEnc, fun h => ?txtDec,
    fun w h => ?lsbEmb, fun w h => ?lsbExt, fun h => ?pixEmb, fun h => ?pixExt⟩
  case cfgDelim =>
    obtain ⟨-, ⟨hcap, hr⟩ | ⟨-, ⟨hun, hr⟩ | ⟨hwritten, hscalar, hr⟩⟩⟩ := execCfgDelim_refused.1 h
    · exact .inl ⟨hr, hcap⟩
    · exact .inr (.inl ⟨hr, Space.exists_unwritten_of_range hun⟩)
    · exact .inr (.inr ⟨hr, State.exists_nonScalar_of_text hwritten hscalar⟩)
  case txtEnc =>
    obtain ⟨hcap, hr⟩ | ⟨-, ⟨hun, hr⟩ | ⟨hwritten, ⟨hscalar, hr⟩ | ⟨-, hlen, hr⟩⟩⟩ := execTxtEnc_refused.1 h
    · exact .inl ⟨hr, .inl hcap⟩
    · exact .inr (.inl ⟨hr, Space.exists_unwritten_of_range hun⟩)
    · obtain ⟨-, -, hdelim⟩ := hs.delim
      rw [List.all_append, hdelim, Bool.and_true] at hscalar
      exact .inr (.inr ⟨hr, State.exists_nonScalar_of_text hwritten hscalar⟩)
    · rw [State.encodedText_length] at hlen
      exact .inl ⟨hr, .inr (by omega)⟩
  case txtDec =>
    obtain ⟨hcap, hr⟩ | ⟨-, ⟨hun, hr⟩ | ⟨-, hcap, hr⟩⟩ := execTxtDec_refused.1 h
    · exact .inl ⟨hr, .inl hcap⟩
    · exact .inr ⟨hr, Space.exists_unwritten_of_range hun⟩
    · exact .inl ⟨hr, .inr hcap⟩
  case lsbEmb =>
    obtain ⟨-, ⟨hcap, hr⟩ | ⟨-, ⟨hun, hr⟩ | ⟨-, hwide, hr⟩⟩⟩ := execLsbEmb_refused.1 h
    · exact .inl ⟨hr, by omega⟩
    · exact .inr (.inl ⟨hr, hun.imp Space.exists_unwritten_of_range Space.exists_unwritten_of_range⟩)
    · exact .inr (.inr ⟨hr, exists_tooWide hs.carWf hwide⟩)
  case lsbExt =>
    exact ⟨_, rfl, execLsbExt_refused_reason hs rfl h⟩
  case pixEmb =>
    obtain ⟨-, ⟨hcap, hr⟩ | ⟨-, ⟨hun, hr⟩ | ⟨-, hwide, hr⟩⟩⟩ := execPixEmb_refused.1 h
    · exact .inl ⟨hr, by omega⟩
    · exact .inr (.inl ⟨hr, hun.imp Space.exists_unwritten_of_range Space.exists_unwritten_of_range⟩)
    · exact .inr (.inr ⟨hr, (exists_tooWide hs.carWf hwide).2⟩)
  case pixExt =>
    exact ⟨_, _, rfl, rfl, execPixExt_refused_reason hs rfl rfl h⟩

end Sys2Proof.Machine

/-! SUPPORT. What a step does with a command, a register write and a load, and what each command writes (O6, O7, O8,
O36, O37, O38, O40). -/

namespace Sys2Proof.Machine

/-! ### Steps and the host (70_reset_and_hazards.md R231, R232) -/

theorem step_of_host {s : State} {a : HostAction} {rest : List HostAction} (h : s.host = a :: rest) :
    step s = performHost a { s with host := rest } := by
  rw [step, h]

theorem step_of_idle {s : State} (h : s.host = []) : step s = .next s := by
  rw [step, h]

theorem issueCommand_of_decode {word : Word} {i : Instr} (h : decode word = .ok i) (s : State) :
    issueCommand word s = exec i s := by
  rw [issueCommand, h]

/-- Settles O6. -/
theorem stepRunsTheDecodedCommand : Obligations.StepRunsTheDecodedCommand :=
  ⟨fun _ _ _ _ hhost hdecode => (step_of_host hhost).trans (issueCommand_of_decode hdecode _),
    fun _ => step_of_idle⟩

/-- A register write touches no field but the seven operand registers. -/
theorem State.setOperand_frame (s : State) (r : OperandReg) (v : Word) :
    s.setOperand r v =
      { s with
        n := (s.setOperand r v).n, h := (s.setOperand r v).h, w := (s.setOperand r v).w, sh := (s.setOperand r v).sh
        sw := (s.setOperand r v).sw, tlen := (s.setOperand r v).tlen, blen := (s.setOperand r v).blen } := by
  cases r <;> rfl

/-- Settles O7. -/
theorem hostWriteSetsOneRegister : Obligations.HostWriteSetsOneRegister := by
  intro s r v rest hhost
  refine ⟨State.setOperand { s with host := rest } r v, step_of_host hhost, State.operand_setOperand_self _ r v,
    fun r' hr => ?_, State.setOperand_frame _ r v⟩
  rw [State.operand_setOperand_of_ne _ v hr]
  cases r' <;> rfl

/-- A load of the space that `get` reads and `put` replaces: every space is loaded the same way (R90, log 10). -/
theorem step_of_load {w : Nat} {s : State} {first cap : Nat} {vals : List (BitVec w)} (get : State → Space w)
    (put : Space w → State) (m : Space w) (hget : ∀ m', get (put m') = m') (hvals : vals ≠ [])
    (hstep : step s = hostAccess first vals.length cap (.next (put (m.store first vals)))) :
    if first + vals.length ≤ cap then
      ∃ t, step s = .next t ∧ t = put (get t) ∧ (get t).holds first vals ∧
        ∀ i, i < first ∨ first + vals.length ≤ i → (get t).get i = m.get i
    else step s = .fault .noSuchElement := by
  have hlen : ¬ vals.length = 0 := fun h => hvals (List.length_eq_zero_iff.1 h)
  rw [hstep]
  split
  · rename_i hcap
    refine ⟨put (m.store first vals), if_pos (.inr hcap), by rw [hget], ?_⟩
    rw [hget]
    exact ⟨Space.store_holds m first vals, fun i hi => Space.get_store_of_not_mem hi⟩
  · rename_i hcap
    exact if_neg (not_or.2 ⟨hlen, hcap⟩)

/-- Settles O8: one argument for the six spaces. -/
theorem hostLoadWritesOnlyItsElements : Obligations.HostLoadWritesOnlyItsElements := by
  intro s first rest
  exact ⟨
    fun _ hhost hne => step_of_load State.car (fun m => { s with car := m, host := rest }) s.car (fun _ => rfl) hne
      (step_of_host hhost),
    fun _ hhost hne => step_of_load State.out (fun m => { s with out := m, host := rest }) s.out (fun _ => rfl) hne
      (step_of_host hhost),
    fun _ hhost hne => step_of_load State.sec (fun m => { s with sec := m, host := rest }) s.sec (fun _ => rfl) hne
      (step_of_host hhost),
    fun _ hhost hne => step_of_load State.recon (fun m => { s with recon := m, host := rest }) s.recon (fun _ => rfl)
      hne (step_of_host hhost),
    fun _ hhost hne => step_of_load State.txt (fun m => { s with txt := m, host := rest }) s.txt (fun _ => rfl) hne
      (step_of_host hhost),
    fun _ hhost hne => step_of_load State.bit (fun m => { s with bit := m, host := rest }) s.bit (fun _ => rfl) hne
      (step_of_host hhost)⟩

/-! ### What a command writes (10_state.md R21, R26, R28; 60_exceptions.md R192) -/

/-- `Writes s i t`: `t` is `s` with only those fields changed that command `i` may write. A failure writes `STATUS`,
and the header registers where a header had been read; a success writes the command's results. -/
inductive Writes (s : State) : Instr → State → Prop
  | failure (i : Instr) {k : Kind} (hk : k ≠ .success) : Writes s i { s with status := statusWord k false }
  | lsbExtFailure (w : SampleWidth) (hdr0 : Word) :
    Writes s (.lsbExt w) { s with hdr0 := hdr0, status := statusWord .invalidHeader false }
  | pixExtFailure (hdr0 hdr1 : Word) :
    Writes s .pixExt { s with hdr0 := hdr0, hdr1 := hdr1, status := statusWord .invalidHeader false }
  | cfgDelim (delim : List CodePoint) (dlen : Word) :
    Writes s .cfgDelim { s with delim := delim, dlen := dlen, status := statusWord .success false }
  | cfgPix (ch d : Nat) (pixcfg : Word) :
    Writes s (.cfgPix ch d) { s with pixcfg := pixcfg, status := statusWord .success false }
  | txtEnc (bit : Space 1) (blen : Word) :
    Writes s .txtEnc { s with bit := bit, blen := blen, status := statusWord .success false }
  | txtDec (txt : Space 21) (tlen : Word) :
    Writes s .txtDec { s with txt := txt, tlen := tlen, status := statusWord .success false }
  | lsbEmb (w : SampleWidth) (out : Space 16) :
    Writes s (.lsbEmb w) { s with out := out, status := statusWord .success false }
  | lsbExt (w : SampleWidth) (hdr0 : Word) (txt : Space 21) (tlen : Word) (warn : Bool) :
    Writes s (.lsbExt w) { s with hdr0 := hdr0, txt := txt, tlen := tlen, status := statusWord .success warn }
  | pixEmb (out : Space 16) : Writes s .pixEmb { s with out := out, status := statusWord .success false }
  | pixExt (hdr0 hdr1 : Word) (recon : Space 8) (sw sh : Word) :
    Writes s .pixExt
      { s with hdr0 := hdr0, hdr1 := hdr1, recon := recon, sw := sw, sh := sh, status := statusWord .success false }

/-- Every command that completes writes only what is its to write. -/
theorem exec_writes {i : Instr} {s t : State} (h : exec i s = .next t) : Writes s i t := by
  cases i with
  | cfgDelim =>
    obtain ⟨-, rfl⟩ | ⟨-, -, -, -, rfl⟩ := execCfgDelim_next.1 h
    · exact .failure _ (by decide)
    · exact .cfgDelim _ _
  | cfgPix ch d =>
    obtain ⟨-, rfl⟩ | ⟨-, -, -, rfl⟩ := execCfgPix_next.1 h
    · exact .failure _ (by decide)
    · exact .cfgPix ch d _
  | txtEnc =>
    obtain ⟨-, -, -, -, -, rfl⟩ := execTxtEnc_next.1 h
    exact .txtEnc _ _
  | txtDec =>
    obtain ⟨-, -, -, rfl⟩ := execTxtDec_next.1 h
    exact .txtDec _ _
  | lsbEmb w =>
    obtain ⟨-, rfl⟩ | ⟨-, -, -, -, -, -, rfl⟩ := execLsbEmb_next.1 h
    · exact .failure _ (by decide)
    · exact .lsbEmb w _
  | lsbExt w =>
    obtain ⟨-, rfl⟩ | ⟨-, -, -, -, m, -, -, hm⟩ := execLsbExt_next.1 h
    · exact .failure _ (by decide)
    · obtain ⟨-, rfl⟩ | ⟨-, -, -, r, warn, -, -, rfl⟩ := extractText_next.1 hm
      · exact .lsbExtFailure w _
      · exact .lsbExt w _ _ _ warn
  | pixEmb =>
    obtain ⟨-, rfl⟩ | ⟨-, -, -, -, -, -, -, -, -, rfl⟩ := execPixEmb_next.1 h
    · exact .failure _ (by decide)
    · exact .pixEmb _
  | pixExt =>
    obtain ⟨-, rfl⟩ | ⟨-, -, -, -, -, sw, sh, -, -, -, -, hd⟩ := execPixExt_next.1 h
    · exact .failure _ (by decide)
    · obtain ⟨-, rfl⟩ | ⟨-, -, -, -, -, _, -, -, rfl⟩ := extractImage_next.1 hd
      · exact .pixExtFailure _ _
      · exact .pixExt _ _ _ _ _

theorem State.succeeded_of_success {s : State} {warn : Bool} (h : s.status = statusWord .success warn) : s.succeeded :=
  (State.succeeded_of_status h).2 rfl

/-- What `STATUS` holds after a command: the warning is given only by a success, of `LSB.EXT`. -/
theorem Writes.status {s t : State} {i : Instr} (h : Writes s i t) :
    ∃ k warn, t.status = statusWord k warn ∧ (warn = true → k = .success ∧ ∃ w, i = .lsbExt w) := by
  cases h <;> exact ⟨_, _, rfl, by simp⟩

theorem Writes.of_not_succeeded {s t : State} {i : Instr} (h : Writes s i t) (hf : ¬ t.succeeded) :
    t.warn = false ∧ t = { s with status := t.status, hdr0 := t.hdr0, hdr1 := t.hdr1 } := by
  cases h with
  | failure | lsbExtFailure | pixExtFailure => exact ⟨State.warn_of_status rfl, rfl⟩
  | cfgDelim | cfgPix | txtEnc | txtDec | lsbEmb | lsbExt | pixEmb | pixExt =>
    exact absurd (State.succeeded_of_success rfl) hf

/-- Settles O40. -/
theorem warningOnlyAfterSuccessfulExtract : Obligations.WarningOnlyAfterSuccessfulExtract := by
  intro i s t h hwarn
  obtain ⟨k, warn, hstatus, hext⟩ := (exec_writes h).status
  obtain ⟨rfl, hi⟩ := hext (State.warn_of_status hstatus ▸ hwarn)
  exact ⟨State.succeeded_of_success hstatus, hi⟩

/-- Settles O38. -/
theorem failureChangesOnlyStatusAndHeaders : Obligations.FailureChangesOnlyStatusAndHeaders := by
  intro i s t h
  refine ⟨(exec_writes h).of_not_succeeded, ?_⟩
  cases exec_writes h <;> simp

/-- Settles O36: a command that does not succeed keeps every operand register, by the frame of a failure. -/
theorem operandRegisterWriteTable : Obligations.OperandRegisterWriteTable := by
  intro i s t h
  have hfail : ¬ t.succeeded → ∀ r, t.operand r = s.operand r := fun hf r => by
    obtain ⟨-, ht⟩ := (exec_writes h).of_not_succeeded hf
    rw [ht]
    cases r <;> rfl
  simp only [and_iff_left hfail]
  cases exec_writes h <;> simp

/-- Settles O37: a command that does not succeed keeps every space, by the frame of a failure. -/
theorem spaceWriteTable : Obligations.SpaceWriteTable := by
  intro i s t h
  by_cases hs : t.succeeded
  · simp only [State.succeeded, (hs : t.kindField = 0), true_and]
    cases exec_writes h <;> simp
  · obtain ⟨-, ht⟩ := (exec_writes h).of_not_succeeded hs
    rw [ht]
    simp

end Sys2Proof.Machine

/-! SUPPORT. What no command reads: the result registers, and the delimiter elements at or above `DLEN` (O42, O43). -/

namespace Sys2Proof.Machine

/-! ### Two runs of a command side by side -/

/-- Two outcomes that end the same way, with next states related by `R`. -/
inductive SameEnd (R : State → State → Prop) : Result → Result → Prop
  | next {t t' : State} (h : R t t') : SameEnd R (.next t) (.next t')
  | fault (f : Fault) : SameEnd R (.fault f) (.fault f)
  | refused (r : Refusal) : SameEnd R (.refused r) (.refused r)

variable {R R' : State → State → Prop}

theorem SameEnd.require {ok : Bool} {r : Refusal} {go go' : Result} (h : SameEnd R go go') :
    SameEnd R (require ok r go) (require ok r go') := by
  cases ok with
  | true => exact h
  | false => exact .refused r

theorem SameEnd.ite {c : Prop} [Decidable c] {x x' y y' : Result} (hpos : SameEnd R x y) (hneg : SameEnd R x' y') :
    SameEnd R (if c then x else x') (if c then y else y') := by
  split
  · exact hpos
  · exact hneg

theorem SameEnd.mono {x y : Result} (h : SameEnd R x y) (hR : ∀ t t', R t t' → R' t t') : SameEnd R' x y := by
  cases h with
  | next h => exact .next (hR _ _ h)
  | fault f => exact .fault f
  | refused r => exact .refused r

theorem SameEnd.exists_next {x y : Result} (h : SameEnd R x y) {t : State} (hx : x = .next t) :
    ∃ t', y = .next t' ∧ R t t' := by
  subst hx
  cases h with
  | next h => exact ⟨_, rfl, h⟩

theorem SameEnd.refused_of_refused {x y : Result} (h : SameEnd R x y) {r : Refusal} (hx : x = .refused r) :
    y = .refused r := by
  subst hx
  cases h with
  | refused r => rfl

/-! ### A state with other unread contents -/

/-- `s` with other contents in `HDR0`, `HDR1`, `STATUS` and the delimiter register file. -/
def State.withUnread (s : State) (hdr0 hdr1 status : Word) (delim : List CodePoint) : State :=
  { s with hdr0 := hdr0, hdr1 := hdr1, status := status, delim := delim }

/-- The next states of a command run at `s` and at `s.withUnread a b c d`: they agree but for what the unread registers
kept. Only `CFG.DELIM` writes the register file. -/
structure AgreeButUnread (i : Instr) (s : State) (a b : Word) (d : List CodePoint) (t t' : State) : Prop where
  rest : t' = { t with hdr0 := t'.hdr0, hdr1 := t'.hdr1, delim := t'.delim }
  hdr0 : t'.hdr0 = t.hdr0 ∨ (t'.hdr0 = a ∧ t.hdr0 = s.hdr0)
  hdr1 : t'.hdr1 = t.hdr1 ∨ (t'.hdr1 = b ∧ t.hdr1 = s.hdr1)
  delim : (i = .cfgDelim ∧ t'.delim = t.delim) ∨ (t'.delim = d ∧ t.delim = s.delim)

variable {s : State} {a b c : Word} {d : List CodePoint}

theorem State.delimiter_withUnread (hd : d.take s.dlen.toNat = s.delim.take s.dlen.toNat) :
    (s.withUnread a b c d).delimiter = s.delimiter :=
  hd

theorem State.encodedText_withUnread (hd : d.take s.dlen.toNat = s.delim.take s.dlen.toNat) :
    (s.withUnread a b c d).encodedText = s.encodedText := by
  rw [State.encodedText, State.delimiter_withUnread hd]
  rfl

theorem State.stegoImage_withUnread : (s.withUnread a b c d).stegoImage = s.stegoImage := rfl

theorem State.imageHeader_withUnread : (s.withUnread a b c d).imageHeader = s.imageHeader := rfl

theorem State.car_withUnread : (s.withUnread a b c d).car = s.car := rfl

theorem extractText_ignores_unread (m : Nat) (hd : d.take s.dlen.toNat = s.delim.take s.dlen.toNat) :
    SameEnd (fun t t' => t' = { t with hdr1 := b, delim := d } ∧ t.hdr1 = s.hdr1 ∧ t.delim = s.delim)
      (extractText m s) (extractText m (s.withUnread s.hdr0 b c d)) := by
  simp only [extractText, State.delimiter_withUnread hd]
  exact .ite (.require (.require (.next ⟨rfl, rfl, rfl⟩))) (.next ⟨rfl, rfl, rfl⟩)

theorem extractImage_ignores_unread (sw sh : Nat) :
    SameEnd (fun t t' => t' = { t with delim := d } ∧ t.delim = s.delim)
      (extractImage sw sh s) (extractImage sw sh (s.withUnread s.hdr0 s.hdr1 c d)) :=
  .ite (.require (.require (.next ⟨rfl, rfl⟩))) (.next ⟨rfl, rfl⟩)

/-- A command that writes none of the unread registers leaves them as they were in both runs. -/
theorem AgreeButUnread.of_kept {i : Instr} {t : State} (h0 : t.hdr0 = s.hdr0) (h1 : t.hdr1 = s.hdr1)
    (hdelim : t.delim = s.delim) : AgreeButUnread i s a b d t { t with hdr0 := a, hdr1 := b, delim := d } :=
  ⟨rfl, .inr ⟨rfl, h0⟩, .inr ⟨rfl, h1⟩, .inr ⟨rfl, hdelim⟩⟩

/-- No command reads the result registers, nor the delimiter beyond `DLEN`; `CFG.DELIM` keeps what it does not write of
the register file, so for it that file is the same in both runs. -/
theorem exec_ignores_unread (i : Instr) (hd : d.take s.dlen.toNat = s.delim.take s.dlen.toNat)
    (hi : i = .cfgDelim → d = s.delim) :
    SameEnd (AgreeButUnread i s a b d) (exec i s) (exec i (s.withUnread a b c d)) := by
  have kept : ∀ {t : State}, t.hdr0 = s.hdr0 → t.hdr1 = s.hdr1 → t.delim = s.delim →
      SameEnd (AgreeButUnread i s a b d) (.next t) (.next { t with hdr0 := a, hdr1 := b, delim := d }) :=
    fun h0 h1 hdelim => .next (.of_kept h0 h1 hdelim)
  cases i with
  | cfgDelim =>
    obtain rfl := hi rfl
    exact .ite (kept rfl rfl rfl)
      (.require (.require (.require (.next ⟨rfl, .inr ⟨rfl, rfl⟩, .inr ⟨rfl, rfl⟩, .inl ⟨rfl, rfl⟩⟩))))
  | cfgPix ch d => exact .ite (kept rfl rfl rfl) (.ite (kept rfl rfl rfl) (kept rfl rfl rfl))
  | txtEnc =>
    simp only [exec, execTxtEnc, State.encodedText_withUnread hd, State.delimiter_withUnread hd]
    exact .require (.require (.require (.require (kept rfl rfl rfl))))
  | txtDec => exact .require (.require (.require (kept rfl rfl rfl)))
  | lsbEmb w => exact .ite (kept rfl rfl rfl) (.require (.require (.require (kept rfl rfl rfl))))
  | lsbExt w =>
    simp only [exec, execLsbExt, State.car_withUnread]
    generalize valMsb (carrierBits s.car 0 32) = m
    refine .ite (kept rfl rfl rfl) (.require (.require (.require ?_)))
    refine (extractText_ignores_unread (s := { s with hdr0 := BitVec.ofNat 32 m }) m hd).mono ?_
    rintro t _ ⟨rfl, h1, hdelim⟩
    exact ⟨rfl, .inl rfl, .inr ⟨rfl, h1⟩, .inr ⟨rfl, hdelim⟩⟩
  | pixEmb =>
    simp only [exec, execPixEmb, State.stegoImage_withUnread]
    exact .ite (kept rfl rfl rfl) (.ite (kept rfl rfl rfl) (.require (.require (.require (kept rfl rfl rfl)))))
  | pixExt =>
    simp only [exec, execPixExt, State.imageHeader_withUnread]
    refine .ite (kept rfl rfl rfl) (.require (.require (.require ?_)))
    refine (extractImage_ignores_unread (s := { s with hdr0 := _, hdr1 := _ }) _ _).mono ?_
    rintro t _ ⟨rfl, hdelim⟩
    exact ⟨rfl, .inl rfl, .inl rfl, .inr ⟨rfl, hdelim⟩⟩

/-- Settles O42: the delimiter is the same in both runs, so the next states agree in all but the header registers. -/
theorem nothingReadsTheResultRegisters : Obligations.NothingReadsTheResultRegisters := by
  intro i s a b c
  have hend : SameEnd (AgreeButUnread i s a b s.delim) (exec i s) (exec i (s.withUnread a b c s.delim)) :=
    exec_ignores_unread i rfl fun _ => rfl
  refine ⟨fun t ht => ?_, fun r => hend.refused_of_refused⟩
  obtain ⟨t', ht', hagree⟩ := hend.exists_next ht
  have hdelim : t'.delim = t.delim := hagree.delim.elim (·.2) fun h => h.1.trans h.2.symm
  refine ⟨t', ht', ?_, hagree.hdr0, hagree.hdr1⟩
  have hrest := hagree.rest
  rwa [hdelim] at hrest

/-- Settles O43: the result registers are the same in both runs, so the next states agree in all but the register
file. -/
theorem delimiterElementsBeyondDlenAreNotRead : Obligations.DelimiterElementsBeyondDlenAreNotRead := by
  intro i s other hi hother
  have hend : SameEnd (AgreeButUnread i s s.hdr0 s.hdr1 other) (exec i s)
      (exec i (s.withUnread s.hdr0 s.hdr1 s.status other)) :=
    exec_ignores_unread i hother fun h => absurd h hi
  refine ⟨fun t ht => ?_, fun r => hend.refused_of_refused⟩
  obtain ⟨t', ht', hagree⟩ := hend.exists_next ht
  have h0 : t'.hdr0 = t.hdr0 := hagree.hdr0.elim id fun h => h.1.trans h.2.symm
  have h1 : t'.hdr1 = t.hdr1 := hagree.hdr1.elim id fun h => h.1.trans h.2.symm
  have hdelim : t'.delim = other := hagree.delim.elim (fun h => absurd h.1 hi) (·.1)
  have hrest := hagree.rest
  rw [h0, h1, hdelim] at hrest
  exact ht'.trans (congrArg _ hrest)

end Sys2Proof.Machine

/-! SUPPORT. The extracting commands on a header that the carrier spells, and the refusals for elements that hold no
value or are too wide (O23, O24, O30, O31, O44, O46, O48). -/

namespace Sys2Proof.Machine

/-! ### `LSB.EXT` (42_lsb_carrier_codec.md R133, R134) -/

theorem spellsLength_of_holds {s : State} {m : Word} {samples : List Sample} (h : s.car.holds 0 samples)
    (hlen : 32 ≤ samples.length) (hbits : ∀ i, i < 32 → (samples.getD i 0).getLsbD 0 = m.getLsbD (31 - i)) :
    s.spellsLength m := by
  intro i hi
  refine ⟨_, Space.get_of_holds h (by omega : i < samples.length), ?_⟩
  rw [← hbits i hi, List.getD_eq_getElem _ _ (by omega)]

/-- Where the first 32 samples spell the length `m`, `LSB.EXT` writes `m` to HDR0 and judges it. -/
theorem execLsbExt_of_spellsLength {w : SampleWidth} {s : State} {m : Word} (hn : 32 ≤ s.n.toNat)
    (hcap : s.n.toNat ≤ s.cfg.capCar) (hwf : s.car.wf) (hfits : s.carFits w s.n.toNat) (h : s.spellsLength m) :
    exec (.lsbExt w) s = extractText m.toNat { s with hdr0 := m } := by
  simp only [exec, execLsbExt, if_neg (Nat.not_lt.2 hn), decide_eq_true hcap, written_of_spellsLength h,
    (samplesFit_iff hwf).2 hfits, require_true, valMsb_of_spellsLength h, BitVec.ofNat_toNat, BitVec.setWidth_eq]

theorem truncateAt_of_find_some {dl t : List CodePoint} {p : Nat} (h : find t dl = some p) :
    truncateAt dl t = (t.take p, false) := by
  rw [truncateAt, h]

theorem truncateAt_of_find_none {dl t : List CodePoint} (h : find t dl = none) : truncateAt dl t = (t, true) := by
  rw [truncateAt, h]

/-- Settles O23. -/
theorem lsbExtGivesTheTruncatedText : Obligations.LsbExtGivesTheTruncatedText := by
  intro s w m samples text hm hmn hcap hwf hfits hlen hholds hbits htext htxt
  have hspell := spellsLength_of_holds hholds (by omega) hbits
  have hpayload : bitsToText (carrierBits s.car 32 m.toNat) = text := by
    rw [htext, carrierBits_of_holds hholds hlen]
    rfl
  obtain ⟨r, warn, hr⟩ : ∃ r warn, truncateAt s.delimiter text = (r, warn) := ⟨_, _, rfl⟩
  have hrcap : r.length ≤ s.cfg.capTxt := by
    have hle := truncateAt_length_le s.delimiter text
    rw [hr] at hle
    exact hle.trans htxt
  refine ⟨{ s with
      hdr0 := m, txt := s.txt.store 0 r, tlen := BitVec.ofNat 32 r.length, status := statusWord .success warn },
    r, ?completes, ?truncated, rfl, Space.store_holds _ _ _, fun q hq => Space.get_store_of_not_mem (.inr (by omega))⟩
  case completes =>
    rw [execLsbExt_of_spellsLength (by omega) hcap hwf hfits hspell]
    exact extractText_next.2 (.inr ⟨hm, hmn, Space.written_range'_of_holds hholds hlen, r, warn, hpayload ▸ hr, hrcap,
      rfl⟩)
  case truncated =>
    cases hfind : find text s.delimiter with
    | some p =>
      obtain ⟨rfl, rfl⟩ := Prod.mk.inj (hr.symm.trans (truncateAt_of_find_some hfind))
      exact ⟨rfl, rfl⟩
    | none =>
      obtain ⟨rfl, rfl⟩ := Prod.mk.inj (hr.symm.trans (truncateAt_of_find_none hfind))
      exact ⟨rfl, rfl⟩

/-- Settles O24. -/
theorem lsbExtRejectsInvalidHeaders : Obligations.LsbExtRejectsInvalidHeaders := by
  refine ⟨fun s w hn => execLsbExt_next.2 (.inl ⟨hn, rfl⟩), ?_⟩
  intro s w m header hn hcap hwf hfits hlen hholds hbits hm
  rw [execLsbExt_of_spellsLength hn hcap hwf hfits (spellsLength_of_holds hholds hlen.ge hbits)]
  exact extractText_next.2 (.inl ⟨show ¬(0 < m.toNat ∧ m.toNat + 32 ≤ s.n.toNat) by omega, rfl⟩)

/-! ### `PIX.EXT` (43_pixel_substitution_codec.md R163) -/

/-- Where the 64 header bytes spell the dimensions `sw`, `sh`, `PIX.EXT` writes them to HDR0 and HDR1 and judges
them. -/
theorem execPixExt_of_spellsDimensions {s : State} {sw sh : Word} (hw : 64 ≤ s.w.toNat) (hh : 1 ≤ s.h.toNat)
    (hcap : 3 * s.h.toNat * s.w.toNat ≤ s.cfg.capCar) (hwf : s.car.wf)
    (hfits : s.carFits .img (3 * s.h.toNat * s.w.toNat)) (h : s.spellsDimensions sw sh) :
    exec .pixExt s = extractImage sw.toNat sh.toNat { s with hdr0 := sw, hdr1 := sh } := by
  have hsize : ¬(s.w.toNat < 64 ∨ s.h.toNat < 1) := by omega
  obtain ⟨hsw, hsh⟩ := valMsb_of_spellsDimensions h
  simp only [exec, execPixExt, if_neg hsize, decide_eq_true hcap, written_of_spellsDimensions h,
    (samplesFit_iff hwf).2 hfits, require_true, hsw, hsh, BitVec.ofNat_toNat, BitVec.setWidth_eq]

/-- A value for each byte of an image, written in order: element `sidx(y, x, c)` holds that of byte `(y, x, c)`. -/
theorem Space.get_store_pixels {w : Nat} (m : Space w) (f : Nat × Nat × Nat → BitVec w) {height width y x c : Nat}
    (hy : y < height) (hx : x < width) (hc : c < 3) :
    (m.store 0 ((pixels height width).map f)).get (pixelIndex width y x c) = some (f (y, x, c)) := by
  have hlt : pixelIndex width y x c < ((pixels height width).map f).length := by
    rw [List.length_map, pixels_length]
    exact pixelIndex_lt hy hx hc
  rw [← Nat.zero_add (pixelIndex width y x c), Space.get_store_of_mem hlt, List.getElem?_map,
    pixels_getElem? hy hx hc, Option.map_some]

theorem lowMask_toNat : ∀ d < 8, (lowMask d).toNat = 2 ^ d - 1 := by decide

/-- R163's byte in arithmetic of numbers: the low `d` bits, moved to the top. -/
theorem reconByte_sampleByte {d : Nat} (hd : d < 8) (v : Sample) :
    reconByte d (sampleByte v) = BitVec.ofNat 8 (v.toNat % 2 ^ d * 2 ^ (8 - d)) := by
  have hdvd : 2 ^ d ∣ 2 ^ 8 := Nat.pow_dvd_pow 2 (by omega)
  have hff : ∀ b : Byte, b &&& 0xFF = b := fun b => BitVec.and_allOnes
  apply BitVec.eq_of_toNat_eq
  rw [reconByte, hff, BitVec.toNat_shiftLeft, BitVec.toNat_and, lowMask_toNat d hd, Nat.and_two_pow_sub_one_eq_mod,
    sampleByte, BitVec.toNat_setWidth, Nat.mod_mod_of_dvd _ hdvd, Nat.shiftLeft_eq, BitVec.toNat_ofNat]

/-- Settles O30: byte `(y, x, c)` of the secret is number `sidx(y, x, c)` of those written to REC. -/
theorem pixExtReconstructsTheSecret : Obligations.PixExtReconstructsTheSecret := by
  intro s sw sh W d hlegal hw hh hcap hwf hfits hspellW hspellH hsw hsh hsww hshh hsec hread
  have hwritten : s.car.written ((pixels sh.toNat sw.toNat).map fun p => pixelIndex W p.1 p.2.1 p.2.2) = true := by
    refine Space.written_iff.2 (List.forall_mem_map.2 fun p hp => ?_)
    obtain ⟨hy, hx, hc⟩ := mem_pixels.1 hp
    exact Option.isSome_iff_exists.1 (hread p.1 p.2.1 p.2.2 hy hx hc)
  refine ⟨_, (execPixExt_of_spellsDimensions hw hh hcap hwf hfits ⟨hspellW, hspellH⟩).trans
    (extractImage_next.2 (.inr ⟨hsw, hsh, hsww, hshh, hsec, _, rfl, hwritten, rfl⟩)), ?frame, ?bytes, ?beyond⟩
  case frame => simp [statusWord, kindCode]
  case bytes =>
    intro y x c hy hx hc
    obtain ⟨v, hv⟩ := Option.isSome_iff_exists.1 (hread y x c hy hx hc)
    have hbyte : reconByte d (sampleByte (s.car.read (pixelIndex W y x c))) =
        BitVec.ofNat 8 (v.toNat % 2 ^ d * 2 ^ (8 - d)) := by
      rw [Space.read_eq_of_get (show s.car.get (pixelIndex W y x c) = some v from hv),
        reconByte_sampleByte s.bitDepth_lt]
    rw [hv, List.map_map]
    exact (Space.get_store_pixels s.recon _ hy hx hc).trans (congrArg some hbyte)
  case beyond =>
    intro a ha
    exact Space.get_store_of_not_mem (.inr (by simpa using ha))

/-- Settles O31. -/
theorem pixExtRejectsInvalidHeaders : Obligations.PixExtRejectsInvalidHeaders := by
  refine ⟨fun s hsize => execPixExt_next.2 (.inl ⟨hsize, rfl⟩), ?_⟩
  intro s sw sh d hlegal hw hh hcap hwf hfits hspellW hspellH hrange
  rw [execPixExt_of_spellsDimensions hw hh hcap hwf hfits ⟨hspellW, hspellH⟩]
  exact extractImage_next.2 (.inl
    ⟨show ¬(0 < sw.toNat ∧ 0 < sh.toNat ∧ sw.toNat ≤ s.w.toNat ∧ sh.toNat ≤ s.h.toNat) by omega, rfl⟩)

/-! ### Elements that hold no value (93_implementation_defined.md U3) -/

theorem Space.written_eq_false_of_mem {w : Nat} {m : Space w} {is : List Nat} {i : Nat} (hi : i ∈ is)
    (h : m.get i = none) : m.written is = false :=
  Space.written_eq_false_iff.2 ⟨i, hi, h⟩

theorem Space.written_range_eq_false {w : Nat} {m : Space w} {i n : Nat} (hi : i < n) (h : m.get i = none) :
    m.written (List.range n) = false :=
  Space.written_eq_false_of_mem (List.mem_range.2 hi) h

/-- Settles O44. -/
theorem readingUnwrittenTextOrBitsIsRefused : Obligations.ReadingUnwrittenTextOrBitsIsRefused := by
  intro s i
  refine ⟨fun hi hcap hnone => ?text, fun hi hcap hnone => ?decode, fun w hi hfit hcar hbit hnone => ?embed⟩
  case text =>
    have hun := Space.written_range_eq_false hi hnone
    exact ⟨execTxtEnc_refused.2 (.inr ⟨hcap, .inl ⟨hun, rfl⟩⟩),
      fun hmax => execCfgDelim_refused.2 ⟨hmax, .inr ⟨hcap, .inl ⟨hun, rfl⟩⟩⟩⟩
  case decode =>
    exact execTxtDec_refused.2 (.inr ⟨hcap, .inl ⟨Space.written_range_eq_false hi hnone, rfl⟩⟩)
  case embed =>
    exact execLsbEmb_refused.2 ⟨hfit, .inr ⟨⟨hcar, hbit⟩, .inl ⟨.inr (Space.written_range_eq_false hi hnone), rfl⟩⟩⟩

/-- Settles O46: in each clause the missing element is one of those the command's pseudocode reads. -/
theorem readingUnwrittenCarrierOrSecretIsRefused : Obligations.ReadingUnwrittenCarrierOrSecretIsRefused := by
  intro s
  refine ⟨fun w i hi hfit hcar hbit hnone => ?lsbEmb, fun w i hi hn hcap hnone => ?lsbExtHeader, ?lsbExtPayload,
    fun a hfit hcap hnone => ?pixEmb, fun k hk hw hh hcap hnone => ?pixExtHeader, ?pixExtPayload⟩
  case lsbEmb =>
    exact execLsbEmb_refused.2 ⟨hfit, .inr ⟨⟨hcar, hbit⟩, .inl ⟨.inl (Space.written_range_eq_false hi hnone), rfl⟩⟩⟩
  case lsbExtHeader =>
    exact execLsbExt_refused.2 ⟨hn, .inr ⟨hcap, .inl ⟨Space.written_range_eq_false hi hnone, rfl⟩⟩⟩
  case lsbExtPayload =>
    intro w m i hi him hmn hcap hwf hfits hspell hnone
    rw [execLsbExt_of_spellsLength (by omega) hcap hwf hfits hspell]
    exact extractText_with_hdr0_refused.2 ⟨⟨by omega, hmn⟩,
      .inl ⟨Space.written_eq_false_of_mem (List.mem_range'_1.2 ⟨hi, him⟩) hnone, rfl⟩⟩
  case pixEmb =>
    have hun := hnone.imp (fun h => Space.written_range_eq_false h.1 h.2) fun h => Space.written_range_eq_false h.1 h.2
    exact execPixEmb_refused.2 ⟨hfit, .inr ⟨hcap, .inl ⟨hun, rfl⟩⟩⟩
  case pixExtHeader =>
    refine execPixExt_refused.2 ⟨⟨hw, hh⟩, .inr ⟨hcap, .inl ⟨?_, rfl⟩⟩⟩
    exact Space.written_eq_false_of_mem (List.mem_map.2 ⟨k, List.mem_range.2 hk, pixelIndex_row_zero _ _ _⟩) hnone
  case pixExtPayload =>
    intro sw sh y x c hy hx hc hw hsww hshh hcap hsec hwf hfits hspell hnone
    rw [execPixExt_of_spellsDimensions hw (by omega) hcap hwf hfits hspell]
    refine extractImage_with_hdrs_refused.2 ⟨⟨by omega, by omega, hsww, hshh⟩, .inr ⟨hsec, ?_, rfl⟩⟩
    exact Space.written_eq_false_of_mem (List.mem_map.2 ⟨(y, x, c), mem_pixels.2 ⟨hy, hx, hc⟩, rfl⟩) hnone

/-! ### Samples above 0xFF (93_implementation_defined.md U8) -/

theorem Space.written_of_holdsAll {w : Nat} {m : Space w} {n : Nat} (h : m.holdsAll n) :
    m.written (List.range n) = true :=
  Space.written_range_iff.2 fun i hi => Option.isSome_iff_exists.1 (h i hi)

/-- Settles O48. -/
theorem tooWideSamplesAreRefused : Obligations.TooWideSamplesAreRefused := by
  intro s j v hv h8
  refine ⟨fun hj hcap => ⟨fun hfit hbit hcar hbits => ?lsbEmb, fun hn hhead => ?lsbExt⟩,
    fun hj => ⟨fun hfit hcap hcar hsec => ?pixEmb, fun hw hh hcap hhead => ?pixExt⟩⟩
  case lsbEmb =>
    exact execLsbEmb_refused.2 ⟨hfit, .inr ⟨⟨hcap, hbit⟩,
      .inr ⟨⟨Space.written_of_holdsAll hcar, Space.written_of_holdsAll hbits⟩, samplesFit_eq_false_of_get hj hv h8,
        rfl⟩⟩⟩
  case lsbExt =>
    exact execLsbExt_refused.2 ⟨hn, .inr ⟨hcap,
      .inr ⟨Space.written_of_holdsAll hhead, .inl ⟨samplesFit_eq_false_of_get hj hv h8, rfl⟩⟩⟩⟩
  case pixEmb =>
    exact execPixEmb_refused.2 ⟨hfit, .inr ⟨hcap,
      .inr ⟨⟨Space.written_of_holdsAll hcar, Space.written_of_holdsAll hsec⟩, samplesFit_eq_false_of_get hj hv h8,
        rfl⟩⟩⟩
  case pixExt =>
    have hwritten : s.car.written ((List.range 64).map fun k => pixelIndex s.w.toNat 0 k s.channel) = true := by
      simp only [Space.written_iff, List.forall_mem_map, List.mem_range, pixelIndex_row_zero]
      exact fun k hk => Option.isSome_iff_exists.1 (hhead k hk)
    exact execPixExt_refused.2 ⟨⟨hw, hh⟩, .inr ⟨hcap,
      .inr ⟨hwritten, .inl ⟨samplesFit_eq_false_of_get hj hv h8, rfl⟩⟩⟩⟩

end Sys2Proof.Machine

/-! SUPPORT. Copying, reading, and which bits of a carrier element an embedding command may change (O9, O10, O45). -/

namespace Sys2Proof.Machine

/-! ### Copies and reads by the host (20_memory.md R60, R66) -/

/-- Settles O9: the copied space reads as OUT where OUT holds a value, else as CAR. -/
theorem copyMakesCarHoldOut : Obligations.CopyMakesCarHoldOut := by
  intro s rest hhost hwf
  refine ⟨{ s with car := s.car.overwriteWith s.out, host := rest }, step_of_host hhost, rfl, fun i => ?_⟩
  rw [Space.get_overwriteWith hwf]
  cases s.out.get i <;> rfl

/-- An access to elements that exist goes on. -/
theorem hostAccess_of_le {first count cap : Nat} (h : first + count ≤ cap) (go : Result) :
    hostAccess first count cap go = go :=
  if_pos (.inr h)

theorem hostReadReg_of_exists {r : HostReg} {s : State} (h : ∀ j, r = .delim j → j < s.cfg.delimMax) :
    hostReadReg r s = .next s := by
  cases r with
  | delim j => exact hostAccess_of_le (h j rfl) _
  | operand _ | pixcfg | dlen | status | hdr0 | hdr1 => rfl

theorem hostReadElem_of_lt {sp : SpaceName} {i : Nat} {s : State} (h : i < s.capacity sp) :
    hostReadElem sp i s = if (s.hostElement sp i).isSome then .next s else .refused .unwrittenElement :=
  hostAccess_of_le h _

/-- A host read does not depend on the actions still pending. -/
theorem State.hostElement_with_host (s : State) (rest : List HostAction) (sp : SpaceName) (i : Nat) :
    State.hostElement { s with host := rest } sp i = s.hostElement sp i := by
  cases sp <;> rfl

theorem State.capacity_with_host (s : State) (rest : List HostAction) (sp : SpaceName) :
    State.capacity { s with host := rest } sp = s.capacity sp := by
  cases sp <;> rfl

/-- Settles O10: a read that completes answers the state it was given. -/
theorem hostReadsChangeNothing : Obligations.HostReadsChangeNothing := by
  refine ⟨fun s r rest hhost hexists => (step_of_host hhost).trans (hostReadReg_of_exists hexists), ?elements⟩
  case elements =>
    intro s sp i rest hhost hi
    rw [← s.capacity_with_host rest] at hi
    rw [← s.hostElement_with_host rest]
    exact (step_of_host hhost).trans (hostReadElem_of_lt hi)

/-! ### The bits that a substitution leaves alone (20_memory.md R57) -/

theorem lowMask_getLsbD {d : Nat} (hd : d < 8) (k : Nat) : (lowMask d).getLsbD k = decide (k < d) := by
  rw [← BitVec.testBit_toNat, lowMask_toNat d hd, Nat.testBit_two_pow_sub_one]

/-- Clearing the low `d` bits keeps every other bit. -/
theorem clearLow_getLsbD {d k : Nat} (hd : d < 8) (hk : d ≤ k) (b : Byte) :
    (b &&& ~~~lowMask d).getLsbD k = b.getLsbD k := by
  rcases Nat.lt_or_ge k 8 with h8 | h8
  · have hmask : (lowMask d).getLsbD k = false := by rw [lowMask_getLsbD hd, decide_eq_false (Nat.not_lt.2 hk)]
    rw [BitVec.getLsbD_and, BitVec.getLsbD_not, hmask, decide_eq_true h8, Bool.not_false, Bool.and_true, Bool.and_true]
  · simp [BitVec.getLsbD_of_ge _ _ h8]

theorem headerByte_getLsbD_of_lt {d k : Nat} (hd : d < 7) (hk : d < k) (hb : Bit) (b : Byte) :
    (headerByte d hb b).getLsbD k = b.getLsbD k := by
  have hbit : (hb.setWidth 8 <<< d).getLsbD k = false := by
    simp [BitVec.getLsbD_of_ge hb (k - d) (by omega)]
  rw [headerByte, BitVec.getLsbD_or, clearLow_getLsbD (by omega) hk, hbit, Bool.or_false]

theorem payloadByte_getLsbD_of_le {d k : Nat} (hd : d < 8) (hk : d ≤ k) (secret b : Byte) :
    (payloadByte d secret b).getLsbD k = b.getLsbD k := by
  have hbit : (secret >>> (8 - d)).getLsbD k = false := by
    rw [BitVec.getLsbD_ushiftRight]
    exact BitVec.getLsbD_of_ge _ _ (by omega)
  rw [payloadByte, BitVec.getLsbD_or, clearLow_getLsbD hd hk, hbit, Bool.or_false]

/-- The 8-bit view of a sample that fits 8 bits, zero-extended again, is the sample (log 9). -/
theorem setWidth_sampleByte {v : Sample} (h : v.toNat < 2 ^ 8) : (sampleByte v).setWidth 16 = v := by
  apply BitVec.eq_of_toNat_eq
  rw [BitVec.toNat_setWidth, sampleByte, BitVec.toNat_setWidth, Nat.mod_eq_of_lt h, Nat.mod_eq_of_lt v.isLt]

/-! ### What an embedding command leaves in OUT -/

theorem Space.get_store_zero {w : Nat} (m : Space w) {vals : List (BitVec w)} {i : Nat} (h : i < vals.length) :
    (m.store 0 vals).get i = vals[i]? := by
  rw [← Nat.zero_add i, Space.get_store_of_mem h, Nat.zero_add]

/-- Sample `j` of OUT after a successful `LSB.EMB` (42_lsb_carrier_codec.md R131). -/
theorem lsbEmb_out_get {w : SampleWidth} {s t : State} (h : exec (.lsbEmb w) s = .next t) (ht : t.succeeded) {j : Nat}
    (hj : j < s.n.toNat) :
    ∃ c, s.car.get j = some c ∧
      t.out.get j = some (match (bitsMsb s.blen.toNat 32 ++ s.bit.front s.blen.toNat)[j]? with
        | some b => setBit0 c b
        | none => c) := by
  obtain ⟨-, rfl⟩ | ⟨-, -, -, hcar, -, -, rfl⟩ := execLsbEmb_next.1 h
  · cases (State.succeeded_of_status rfl).1 ht
  · obtain ⟨c, hc⟩ := Space.written_range_iff.1 hcar j hj
    refine ⟨c, hc, (Space.get_store_zero s.out (by simpa using hj)).trans ?_⟩
    rw [embedBits_getElem?, Space.front_getElem?_of_written hcar hj, hc]
    rfl

/-- The byte at `(y, x, c)` after step 1 of `PIX.EMB` (43_pixel_substitution_codec.md R161). -/
def State.headerStep (s : State) (y x c : Nat) (b : Byte) : Byte :=
  if y = 0 ∧ x < 64 ∧ c = s.channel then
    headerByte s.bitDepth ((dimensionHeader s.sw.toNat s.sh.toNat).getD x 0) b
  else b

/-- The byte at `(y, x, c)` after both steps of `PIX.EMB` (R161, R162). -/
def State.stegoByte (s : State) (y x c : Nat) (b : Byte) : Byte :=
  if y < s.sh.toNat ∧ x < s.sw.toNat then
    payloadByte s.bitDepth (s.sec.read (pixelIndex s.sw.toNat y x c)) (s.headerStep y x c b)
  else s.headerStep y x c b

theorem State.stegoImage_getElem? {s : State} (hw : 64 ≤ s.w.toNat) (hsw : s.sw.toNat ≤ s.w.toNat) (hch : s.channel < 3)
    {y x c : Nat} (hy : y < s.h.toNat) (hx : x < s.w.toNat) (hc : c < 3) :
    s.stegoImage[pixelIndex s.w.toNat y x c]? =
      some (s.stegoByte y x c (sampleByte (s.car.read (pixelIndex s.w.toNat y x c)))) := by
  rw [State.stegoImage, embedPayload_getElem? _ hsw hx hc, embedHeader_getElem? _ hw hch hx hc, List.getElem?_map,
    Space.front_getElem? (pixelIndex_lt hy hx hc)]
  rfl

/-- Byte `(y, x, c)` of OUT after a successful `PIX.EMB`, from a cover whose samples are 8-bit. -/
theorem pixEmb_out_get {s t : State} (hwf : s.car.wf) (hch : s.channel < 3) (h : exec .pixEmb s = .next t)
    (ht : t.succeeded) {y x c : Nat} (hy : y < s.h.toNat) (hx : x < s.w.toNat) (hc : c < 3) :
    ∃ v, s.car.get (pixelIndex s.w.toNat y x c) = some v ∧ v.toNat < 2 ^ 8 ∧
      t.out.get (pixelIndex s.w.toNat y x c) = some ((s.stegoByte y x c (sampleByte v)).setWidth 16) := by
  obtain ⟨-, rfl⟩ | ⟨hw, -, hsw, -, -, -, hcar, -, hfits, rfl⟩ := execPixEmb_next.1 h
  · cases (State.succeeded_of_status rfl).1 ht
  · have hi := pixelIndex_lt hy hx hc
    obtain ⟨v, hv⟩ := Space.written_range_iff.1 hcar _ hi
    refine ⟨v, hv, (samplesFit_iff hwf).1 hfits _ hi v hv rfl,
      (Space.get_store_zero s.out (by simpa using hi)).trans ?_⟩
    rw [List.getElem?_map, State.stegoImage_getElem? hw hsw hch hy hx hc, Space.read_eq_of_get hv]
    rfl

theorem State.headerStep_getLsbD {s : State} (hd : s.bitDepth ≤ 4) {y x c k : Nat} (b : Byte)
    (h : s.bitDepth < k ∨ ¬(y = 0 ∧ x < 64 ∧ c = s.channel)) : (s.headerStep y x c b).getLsbD k = b.getLsbD k := by
  unfold State.headerStep
  split
  · exact headerByte_getLsbD_of_lt (by omega) (by omega) _ b
  · rfl

/-- R57 for `PIX.EMB`: the bits of a byte that its two steps leave alone. -/
theorem State.stegoByte_getLsbD {s : State} (hd : s.bitDepth ≤ 4) {y x c k : Nat} (b : Byte)
    (h : s.bitDepth < k ∨ (s.bitDepth ≤ k ∧ ¬(y = 0 ∧ x < 64 ∧ c = s.channel)) ∨
      ¬(y = 0 ∧ x < 64 ∧ c = s.channel) ∧ ¬(y < s.sh.toNat ∧ x < s.sw.toNat)) :
    (s.stegoByte y x c b).getLsbD k = b.getLsbD k := by
  have hheader : (s.headerStep y x c b).getLsbD k = b.getLsbD k := State.headerStep_getLsbD hd b (by omega)
  unfold State.stegoByte
  split
  · exact (payloadByte_getLsbD_of_le (by omega) (by omega) _ _).trans hheader
  · exact hheader

/-- Settles O45: each bit of OUT is a bit of the substituted element, and a substitution keeps the other bits. -/
theorem embeddingPreservesTheOtherBits : Obligations.EmbeddingPreservesTheOtherBits := by
  rintro s t hwf ⟨hch, -, hd, -⟩ ht
  refine ⟨fun w h j hj => ?lsbEmb, fun h y x c hy hx hc => ?pixEmb⟩
  case lsbEmb =>
    obtain ⟨v, hv, hout⟩ := lsbEmb_out_get h ht hj
    refine ⟨v, _, hv, hout, fun k hk => ?_⟩
    split
    · rename_i b hb
      have hj' : j < 32 + s.blen.toNat := by
        simpa using (List.getElem?_eq_some_iff.1 hb).1
      exact setBit0_getLsbD_succ v b k (by omega)
    · rfl
  case pixEmb =>
    obtain ⟨v, hv, hv8, hout⟩ := pixEmb_out_get hwf (by omega) h ht hy hx hc
    refine ⟨v, _, hv, hout, fun k hk => ?_⟩
    calc ((s.stegoByte y x c (sampleByte v)).setWidth 16).getLsbD k
        = ((sampleByte v).setWidth 16).getLsbD k := by
          rw [BitVec.getLsbD_setWidth, BitVec.getLsbD_setWidth, State.stegoByte_getLsbD hd _ hk]
      _ = v.getLsbD k := by rw [setWidth_sampleByte hv8]

end Sys2Proof.Machine

/-! SUPPORT. The decoder and the encoder (30_encoding.md): the fields of a command word, the opcode map, and words that
are no command (O1, O2, O3, O4, O5). -/

namespace Sys2Proof

/-! ### The fields of a command word (30_encoding.md R85 to R87) -/

/-- `Instr.fieldsIn c i`: word `c` has the fields of command `i`, by the formats of R85 and the opcodes of R87. -/
def Instr.fieldsIn (c : Word) : Instr → Prop
  | .cfgDelim => c.extractLsb' 24 8 = 0x01 ∧ c.extractLsb' 0 24 = 0
  | .cfgPix ch d => c.extractLsb' 24 8 = 0x02 ∧ (c.extractLsb' 16 8 = 0 ∧ c.extractLsb' 2 6 = 0) ∧
      ch = (c.extractLsb' 0 2).toNat ∧ d = (c.extractLsb' 8 8).toNat
  | .txtEnc => c.extractLsb' 24 8 = 0x10 ∧ c.extractLsb' 0 24 = 0
  | .txtDec => c.extractLsb' 24 8 = 0x11 ∧ c.extractLsb' 0 24 = 0
  | .lsbEmb w => c.extractLsb' 24 8 = 0x20 ∧ c.extractLsb' 1 23 = 0 ∧ w = widthOfBit (c.extractLsb' 0 1)
  | .lsbExt w => c.extractLsb' 24 8 = 0x21 ∧ c.extractLsb' 1 23 = 0 ∧ w = widthOfBit (c.extractLsb' 0 1)
  | .pixEmb => c.extractLsb' 24 8 = 0x30 ∧ c.extractLsb' 0 24 = 0
  | .pixExt => c.extractLsb' 24 8 = 0x31 ∧ c.extractLsb' 0 24 = 0

theorem decodeZ_eq_ok {c : Word} {i j : Instr} : decodeZ c i = .ok j ↔ c.extractLsb' 0 24 = 0 ∧ j = i := by
  unfold decodeZ
  split <;> simp_all [eq_comm]

theorem decodeW_eq_ok {c : Word} {f : SampleWidth → Instr} {j : Instr} :
    decodeW c f = .ok j ↔ c.extractLsb' 1 23 = 0 ∧ j = f (widthOfBit (c.extractLsb' 0 1)) := by
  unfold decodeW
  split <;> simp_all [eq_comm]

theorem decodeP_eq_ok {c : Word} {f : Nat → Nat → Instr} {j : Instr} :
    decodeP c f = .ok j ↔ (c.extractLsb' 16 8 = 0 ∧ c.extractLsb' 2 6 = 0) ∧
      j = f (c.extractLsb' 0 2).toNat (c.extractLsb' 8 8).toNat := by
  unfold decodeP
  split <;> simp_all [eq_comm]

/-- All the decoder does: it accepts a word as the command whose fields the word has. -/
theorem decode_eq_ok_iff {c : Word} {i : Instr} : decode c = .ok i ↔ i.fieldsIn c := by
  constructor
  · intro h
    dsimp only [decode] at h
    split_ifs at h with hopc hopc hopc hopc hopc hopc hopc hopc
    · obtain ⟨hzero, rfl⟩ := decodeZ_eq_ok.1 h
      exact ⟨hopc, hzero⟩
    · obtain ⟨hzero, rfl⟩ := decodeP_eq_ok.1 h
      exact ⟨hopc, hzero, rfl, rfl⟩
    · obtain ⟨hzero, rfl⟩ := decodeZ_eq_ok.1 h
      exact ⟨hopc, hzero⟩
    · obtain ⟨hzero, rfl⟩ := decodeZ_eq_ok.1 h
      exact ⟨hopc, hzero⟩
    · obtain ⟨hzero, rfl⟩ := decodeW_eq_ok.1 h
      exact ⟨hopc, hzero, rfl⟩
    · obtain ⟨hzero, rfl⟩ := decodeW_eq_ok.1 h
      exact ⟨hopc, hzero, rfl⟩
    · obtain ⟨hzero, rfl⟩ := decodeZ_eq_ok.1 h
      exact ⟨hopc, hzero⟩
    · obtain ⟨hzero, rfl⟩ := decodeZ_eq_ok.1 h
      exact ⟨hopc, hzero⟩
  · cases i with
    | cfgDelim | txtEnc | txtDec | pixEmb | pixExt =>
      rintro ⟨hopc, hzero⟩
      simp [decode, hopc, decodeZ_eq_ok, hzero]
    | lsbEmb w | lsbExt w =>
      rintro ⟨hopc, hzero, rfl⟩
      simp [decode, hopc, decodeW_eq_ok, hzero]
    | cfgPix ch d =>
      rintro ⟨hopc, hzero, rfl, rfl⟩
      simp [decode, hopc, decodeP_eq_ok, hzero]

/-! ### A field of a word -/

variable {c c' : Word} {start len : Nat}

theorem getLsbD_eq_of_field (h : c.extractLsb' start len = c'.extractLsb' start len) {k : Nat} (hs : start ≤ k)
    (hk : k < start + len) : c.getLsbD k = c'.getLsbD k := by
  have hbit := congrArg (·.getLsbD (k - start)) h
  simpa [show k - start < len by omega, show start + (k - start) = k by omega] using hbit

/-- A field that a row's mask covers has the row's value in every word that selects the row (R87). -/
theorem field_of_masked {mask pattern : Word} (h : c &&& mask = pattern)
    (hmask : mask.extractLsb' start len = BitVec.allOnes len) :
    c.extractLsb' start len = pattern.extractLsb' start len := by
  rw [← h, BitVec.extractLsb'_and, hmask, BitVec.and_allOnes]

theorem widthOfBit_injective : ∀ b b' : Bit, widthOfBit b = widthOfBit b' → b = b' := by decide

/-- The fields of a command fix every bit of its word. -/
theorem Instr.fieldsIn_unique {i : Instr} (h : i.fieldsIn c) (h' : i.fieldsIn c') : c = c' := by
  refine BitVec.eq_of_getLsbD_eq fun k hk => ?_
  cases i with
  | cfgDelim | txtEnc | txtDec | pixEmb | pixExt =>
    obtain ⟨hopc, hzero⟩ := h
    obtain ⟨hopc', hzero'⟩ := h'
    rcases Nat.lt_or_ge k 24 with h24 | h24
    · exact getLsbD_eq_of_field (hzero.trans hzero'.symm) (Nat.zero_le k) (by omega)
    · exact getLsbD_eq_of_field (hopc.trans hopc'.symm) h24 hk
  | lsbEmb w | lsbExt w =>
    obtain ⟨hopc, hzero, hw⟩ := h
    obtain ⟨hopc', hzero', hw'⟩ := h'
    rcases Nat.lt_or_ge k 24 with h24 | h24
    · rcases Nat.lt_or_ge k 1 with h1 | h1
      · exact getLsbD_eq_of_field (widthOfBit_injective _ _ (hw.symm.trans hw')) (Nat.zero_le k) (by omega)
      · exact getLsbD_eq_of_field (hzero.trans hzero'.symm) h1 (by omega)
    · exact getLsbD_eq_of_field (hopc.trans hopc'.symm) h24 hk
  | cfgPix ch d =>
    obtain ⟨hopc, ⟨hhigh, hlow⟩, hch, hd⟩ := h
    obtain ⟨hopc', ⟨hhigh', hlow'⟩, hch', hd'⟩ := h'
    obtain hk | hk | hk | hk | hk : k < 2 ∨ (2 ≤ k ∧ k < 8) ∨ (8 ≤ k ∧ k < 16) ∨ (16 ≤ k ∧ k < 24) ∨ 24 ≤ k := by omega
    · exact getLsbD_eq_of_field (BitVec.eq_of_toNat_eq (hch.symm.trans hch')) (Nat.zero_le k) (by omega)
    · exact getLsbD_eq_of_field (hlow.trans hlow'.symm) hk.1 hk.2
    · exact getLsbD_eq_of_field (BitVec.eq_of_toNat_eq (hd.symm.trans hd')) hk.1 hk.2
    · exact getLsbD_eq_of_field (hhigh.trans hhigh'.symm) hk.1 hk.2
    · exact getLsbD_eq_of_field (hopc.trans hopc'.symm) hk (by omega)

theorem encode_cfgPix_toNat {ch d : Nat} (hch : ch < 4) (hd : d < 256) :
    (encode (.cfgPix ch d)).toNat = 2 ^ 8 * (2 ^ 17 + d) + ch := by
  have hlow : 2 ^ 8 * d < 2 ^ 25 := by omega
  rw [encode, BitVec.toNat_or, BitVec.toNat_or, BitVec.toNat_shiftLeft, BitVec.toNat_ofNat, BitVec.toNat_ofNat,
    Nat.shiftLeft_eq]
  calc 2 ^ 25 * 1 ||| d % 2 ^ 32 * 2 ^ 8 % 2 ^ 32 ||| ch % 2 ^ 32
      = (2 ^ 25 * 1 ||| 2 ^ 8 * d) ||| ch := by
        rw [Nat.mod_eq_of_lt (by omega), Nat.mod_eq_of_lt (by omega), Nat.mod_eq_of_lt (by omega), Nat.mul_comm d]
    _ = 2 ^ 8 * (2 ^ 17 + d) ||| ch := by
        rw [← Nat.two_pow_add_eq_or_of_lt hlow]; congr 1; omega
    _ = 2 ^ 8 * (2 ^ 17 + d) + ch := (Nat.two_pow_add_eq_or_of_lt (by omega) _).symm

theorem Instr.fieldsIn_encode {i : Instr} (h : i.wf = true) : i.fieldsIn (encode i) := by
  cases i with
  | cfgDelim | txtEnc | txtDec | pixEmb | pixExt => exact ⟨by decide, by decide⟩
  | lsbEmb w | lsbExt w => cases w <;> exact ⟨by decide, by decide, by decide⟩
  | cfgPix ch d =>
    simp only [Instr.wf, Bool.and_eq_true, decide_eq_true_eq] at h
    obtain ⟨hch, hd⟩ := h
    have hfield (start len : Nat) : ((encode (.cfgPix ch d)).extractLsb' start len).toNat =
        (2 ^ 8 * (2 ^ 17 + d) + ch) / 2 ^ start % 2 ^ len := by
      rw [BitVec.extractLsb'_toNat, encode_cfgPix_toNat hch hd, Nat.shiftRight_eq_div_pow]
    exact ⟨BitVec.eq_of_toNat_eq ((hfield 24 8).trans (show _ = 2 by omega)),
      ⟨BitVec.eq_of_toNat_eq ((hfield 16 8).trans (show _ = 0 by omega)),
        BitVec.eq_of_toNat_eq ((hfield 2 6).trans (show _ = 0 by omega))⟩,
      by rw [hfield]; omega, by rw [hfield]; omega⟩

theorem Instr.wf_of_fieldsIn {i : Instr} (h : i.fieldsIn c) : i.wf = true := by
  cases i with
  | cfgPix ch d =>
    obtain ⟨-, -, rfl, rfl⟩ := h
    simpa [Instr.wf] using ⟨(c.extractLsb' 0 2).isLt, (c.extractLsb' 8 8).isLt⟩
  | cfgDelim | txtEnc | txtDec | lsbEmb | lsbExt | pixEmb | pixExt => rfl

/-- Settles O2. -/
theorem decodeInvertsEncode : Obligations.DecodeInvertsEncode :=
  fun _ hwf => decode_eq_ok_iff.2 (Instr.fieldsIn_encode hwf)

/-- Settles O3: the command's own word has the same fields, and the fields fix the word. -/
theorem encodeInvertsDecode : Obligations.EncodeInvertsDecode := by
  intro c i h
  have hfields : i.fieldsIn c := decode_eq_ok_iff.1 h
  have hwf := Instr.wf_of_fieldsIn hfields
  exact ⟨hwf, Instr.fieldsIn_unique (Instr.fieldsIn_encode hwf) hfields⟩

/-! ### The opcode map (30_encoding.md R87, R88) -/

theorem OpcodeRow.selectedBy_iff {r : OpcodeRow} : r.selectedBy c = true ↔ c &&& r.mask = r.pattern :=
  decide_eq_true_iff

/-- A row's mask covers the opcode and every field that R85 marks zero. -/
theorem exists_fieldsIn_of_selected {r : OpcodeRow} (hr : r ∈ opcodeTable) (hsel : r.selectedBy c = true) :
    ∃ i : Instr, i.fieldsIn c ∧ i.mnemonic = r.mnemonic := by
  have h := OpcodeRow.selectedBy_iff.1 hsel
  simp only [opcodeTable, List.mem_cons, List.not_mem_nil, or_false] at hr
  obtain rfl | rfl | rfl | rfl | rfl | rfl | rfl | rfl := hr
  · exact ⟨.cfgDelim, ⟨field_of_masked h (by decide), field_of_masked h (by decide)⟩, rfl⟩
  · exact ⟨.cfgPix _ _, ⟨field_of_masked h (by decide), ⟨field_of_masked h (by decide), field_of_masked h (by decide)⟩,
      rfl, rfl⟩, rfl⟩
  · exact ⟨.txtEnc, ⟨field_of_masked h (by decide), field_of_masked h (by decide)⟩, rfl⟩
  · exact ⟨.txtDec, ⟨field_of_masked h (by decide), field_of_masked h (by decide)⟩, rfl⟩
  · exact ⟨.lsbEmb _, ⟨field_of_masked h (by decide), field_of_masked h (by decide), rfl⟩, rfl⟩
  · exact ⟨.lsbExt _, ⟨field_of_masked h (by decide), field_of_masked h (by decide), rfl⟩, rfl⟩
  · exact ⟨.pixEmb, ⟨field_of_masked h (by decide), field_of_masked h (by decide)⟩, rfl⟩
  · exact ⟨.pixExt, ⟨field_of_masked h (by decide), field_of_masked h (by decide)⟩, rfl⟩

/-- The row of R87's map that an accepted word selects. -/
theorem exists_selected_of_decode {i : Instr} (h : decode c = .ok i) :
    ∃ r ∈ opcodeTable, r.mnemonic = i.mnemonic ∧ r.selectedBy c = true := by
  obtain ⟨hwf, rfl⟩ := encodeInvertsDecode c i h
  cases i with
  | cfgDelim => exact Laws.EncodesToRow.cfgDelim hwf
  | cfgPix ch d => exact Laws.EncodesToRow.cfgPix ch d hwf
  | txtEnc => exact Laws.EncodesToRow.txtEnc hwf
  | txtDec => exact Laws.EncodesToRow.txtDec hwf
  | lsbEmb w => exact Laws.EncodesToRow.lsbEmb w hwf
  | lsbExt w => exact Laws.EncodesToRow.lsbExt w hwf
  | pixEmb => exact Laws.EncodesToRow.pixEmb hwf
  | pixExt => exact Laws.EncodesToRow.pixExt hwf

theorem masks_cover_opcode : ∀ r ∈ opcodeTable, r.mask.extractLsb' 24 8 = BitVec.allOnes 8 := by decide

theorem opcode_injective : ∀ r₁ ∈ opcodeTable, ∀ r₂ ∈ opcodeTable,
    r₁.pattern.extractLsb' 24 8 = r₂.pattern.extractLsb' 24 8 → r₁ = r₂ := by decide

theorem exists_error_of_no_row (h : ∀ r ∈ opcodeTable, r.selectedBy c = false) : ∃ e, decode c = .error e := by
  cases hdecode : decode c with
  | error e => exact ⟨e, rfl⟩
  | ok i =>
    obtain ⟨r, hr, -, hsel⟩ := exists_selected_of_decode hdecode
    cases (h r hr).symm.trans hsel

/-- Settles O4: a row's mask covers the fields the decoder tests, and the rows differ in their opcodes. -/
theorem decoderFollowsOpcodeMap : Obligations.DecoderFollowsOpcodeMap := by
  refine fun c => ⟨fun r hr hsel => ?selected, exists_error_of_no_row, fun r₁ hr₁ r₂ hr₂ hsel₁ hsel₂ => ?unique⟩
  case selected =>
    obtain ⟨i, hfields, hname⟩ := exists_fieldsIn_of_selected hr hsel
    exact ⟨i, decode_eq_ok_iff.2 hfields, hname⟩
  case unique =>
    have hopc {r : OpcodeRow} (hr : r ∈ opcodeTable) (hsel : r.selectedBy c = true) :
        c.extractLsb' 24 8 = r.pattern.extractLsb' 24 8 :=
      field_of_masked (OpcodeRow.selectedBy_iff.1 hsel) (masks_cover_opcode r hr)
    exact opcode_injective r₁ hr₁ r₂ hr₂ ((hopc hr₁ hsel₁).symm.trans (hopc hr₂ hsel₂))

/-- Settles O1. -/
theorem writtenOutWordsDecode : Obligations.WrittenOutWordsDecode := by
  unfold Obligations.WrittenOutWordsDecode
  decide

end Sys2Proof

namespace Sys2Proof.Machine

/-- An operand that `CFG.PIX` rejects (43_pixel_substitution_codec.md R160). -/
theorem execCfgPix_of_illegal {ch d : Nat} (h : d < 1 ∨ 4 < d ∨ 2 < ch) (s : State) :
    exec (.cfgPix ch d) s = .next { s with status := statusWord .configurationError false } :=
  execCfgPix_next.2 (.inl ⟨h, rfl⟩)

theorem issueCommand_of_no_row {c : Word} (h : ∀ r ∈ opcodeTable, r.selectedBy c = false) (s : State) :
    issueCommand c s = .next { s with status := statusWord .illegalCommand false } := by
  obtain ⟨e, he⟩ := exists_error_of_no_row h
  rw [issueCommand, he]
  rfl

/-- Settles O5. -/
theorem illegalWordChangesOnlyStatus : Obligations.IllegalWordChangesOnlyStatus := by
  refine ⟨fun s c rest hhost hrow => (step_of_host hhost).trans (issueCommand_of_no_row hrow _),
    fun s ch d hch hd hillegal => ⟨decodeInvertsEncode _ ?_, execCfgPix_of_illegal (by omega) s⟩⟩
  simp [Instr.wf, hch, hd]

end Sys2Proof.Machine

/-! SUPPORT. What `TXT.ENC` and `LSB.EMB` write, and the two one after the other (O17, O22, O25). -/

namespace Sys2Proof.Machine

/-! ### `TXT.ENC` (41_text_bit_codec.md R110) -/

theorem State.text_of_holds {s : State} {text : List CodePoint} (hlen : s.tlen.toNat = text.length)
    (h : s.txt.holds 0 text) : s.text = text := by
  rw [State.text, hlen, Space.front_of_holds h]

theorem Space.written_of_holds_of_length {w : Nat} {m : Space w} {xs : List (BitVec w)} {n : Nat} (h : m.holds 0 xs)
    (hn : n = xs.length) : m.written (List.range n) = true :=
  hn ▸ Space.written_of_holds h

/-- Settles O17: where no premise fails, BIT takes the bitstream of text and delimiter; each refusal is the premise
judged after the ones that hold. -/
theorem txtEncWritesTheBitstream : Obligations.TxtEncWritesTheBitstream := by
  refine ⟨rfl, fun s text hlen hcap hholds ⟨_, _, hdelim⟩ => ?_⟩
  have htext : s.text = text := State.text_of_holds hlen hholds
  have hwritten := Space.written_of_holds_of_length hholds hlen
  have hall : (s.text ++ s.delimiter).all isScalar = text.all isScalar := by
    rw [List.all_append, hdelim, Bool.and_true, htext]
  rw [← hlen] at hcap
  refine ⟨fun hscalar => execTxtEnc_refused.2 (.inr ⟨hcap, .inr ⟨hwritten, .inl ⟨hall.trans hscalar, rfl⟩⟩⟩),
    fun hscalar => ?_⟩
  obtain ⟨bytes, hbytes⟩ : ∃ bytes, bytes = utf8s (text ++ s.delim.take s.dlen.toNat) := ⟨_, rfl⟩
  have hbits : s.encodedText = bytesToBits bytes := by rw [State.encodedText, htext, hbytes]; rfl
  have hcount : s.encodedText.length = 8 * bytes.length := by rw [hbits, bytesToBits_length]
  simp only [← hbytes]
  split
  case isTrue hfits =>
    rw [← hcount] at hfits ⊢
    refine ⟨_, execTxtEnc_next.2 ⟨hcap, hwritten, hall.trans hscalar, hfits.1, hfits.2, rfl⟩, rfl,
      fun q r hq hr => ?_, fun i hi => Space.get_store_of_not_mem (.inr (by omega))⟩
    rw [← bytesToBits_getElem? bytes q hr, ← hbits]
    exact Space.get_store_zero s.bit (by omega)
  case isFalse hfits =>
    rw [← hcount] at hfits
    exact execTxtEnc_refused.2 (.inr ⟨hcap, .inr ⟨hwritten, .inr ⟨hall.trans hscalar, hfits, rfl⟩⟩⟩)

/-! ### `LSB.EMB` (42_lsb_carrier_codec.md R131) -/

theorem execLsbEmb_of_short {s : State} (w : SampleWidth) (h : s.n.toNat < s.blen.toNat + 32) :
    exec (.lsbEmb w) s = .next { s with status := statusWord .capacityExceeded false } :=
  execLsbEmb_next.2 (.inl ⟨h, rfl⟩)

/-- Bit `j` of what `LSB.EMB` embeds (R82): the length in the first 32 places, most significant bit first, then the
payload. -/
theorem embedded_getElem? (m : Word) (payload : List Bit) (j : Nat) :
    (bitsMsb m.toNat 32 ++ payload)[j]? =
      if j < 32 then some (BitVec.ofBool (m.getLsbD (31 - j))) else payload[j - 32]? := by
  split
  · rw [List.getElem?_append_left (by rwa [bitsMsb_length]), bitsMsb_word_getElem? m ‹_›]
  · rw [List.getElem?_append_right (by rw [bitsMsb_length]; omega), bitsMsb_length]

/-- Settles O22. -/
theorem lsbEmbWritesTheStegoCarrier : Obligations.LsbEmbWritesTheStegoCarrier := by
  refine ⟨rfl, rfl, fun s w hshort => execLsbEmb_of_short w hshort, ?_⟩
  intro s w carrier payload hn hm hfit hcapCar hcapBit hwf hcar hbit hwide
  have hpayload : s.bit.front s.blen.toNat = payload := by rw [hm, Space.front_of_holds hbit]
  have hfits : samplesFit w s.car s.n.toNat = true := by
    refine (samplesFit_iff hwf).2 fun i hi v hv himg => hwide himg v ?_
    rw [Space.get_of_holds hcar (hn ▸ hi)] at hv
    exact Option.some.inj hv ▸ List.getElem_mem _
  have hexec := execLsbEmb_next.2 (.inr ⟨by omega, by omega, by omega, Space.written_of_holds_of_length hcar hn,
    Space.written_of_holds_of_length hbit hm, hfits, rfl⟩)
  refine ⟨_, hexec, rfl, fun j hj => ?element, fun j hj => Space.get_store_of_not_mem (.inr (by simpa [hn] using hj))⟩
  case element =>
    obtain ⟨c, hc, hout⟩ := lsbEmb_out_get hexec (State.succeeded_of_success rfl) (hn ▸ hj)
    have hput := embedded_getElem? s.blen payload j
    rw [← hpayload] at hput
    rw [hput] at hout
    have hcj : carrier[j]? = some c := by rw [← hc, Space.get_of_holds hcar hj, List.getElem?_eq_getElem hj]
    refine ⟨c, _, hcj, hout, ?_⟩
    rcases Nat.lt_or_ge j 32 with h32 | h32
    · simp only [if_pos h32]
      exact ⟨setBit0_getLsbD_succ c _, by rw [setBit0_getLsbD_zero]; simp⟩
    · simp only [if_neg (Nat.not_lt.2 h32), hpayload]
      rcases Nat.lt_or_ge j (32 + payload.length) with hpay | hpay
      · rw [if_pos hpay, List.getElem?_eq_getElem (by omega), List.getD_eq_getElem _ _ (by omega)]
        exact ⟨setBit0_getLsbD_succ c _, setBit0_getLsbD_zero c _⟩
      · rw [if_neg (Nat.not_lt.2 hpay), List.getElem?_eq_none (by omega)]
        exact ⟨fun _ _ => rfl, rfl⟩

/-! ### `HIDE.TXT` (30_encoding.md R91, 42_lsb_carrier_codec.md R135) -/

theorem step_of_command {s : State} {i : Instr} {rest : List HostAction} (hwf : i.wf = true)
    (h : s.host = .command (encode i) :: rest) : step s = exec i { s with host := rest } :=
  (step_of_host h).trans (issueCommand_of_decode (decodeInvertsEncode i hwf) _)

theorem run_succ_of_step {s t : State} (h : step s = .next t) (k : Nat) :
    Sys2Proof.core.run (k + 1) s = Sys2Proof.core.run k t := by
  have hcore : Sys2Proof.core.step s = .next t := h
  simp only [Host.Core.run, hcore]

/-- Settles O25. -/
theorem hideTextIsEncodeThenEmbed : Obligations.HideTextIsEncodeThenEmbed := by
  intro s s₁ s₂ w rest hhost henc hemb
  have henc_step : step s = .next s₁ := (step_of_command (i := .txtEnc) rfl hhost).trans henc
  obtain ⟨-, -, -, -, -, rfl⟩ := execTxtEnc_next.1 henc
  refine ⟨(run_succ_of_step henc_step 1).trans
    (run_succ_of_step ((step_of_command (i := .lsbEmb w) rfl rfl).trans hemb) 0), ?_⟩
  obtain ⟨-, rfl⟩ | ⟨-, -, -, -, -, -, rfl⟩ := execLsbEmb_next.1 hemb
  · exact ⟨rfl, rfl, rfl, fun _ => ⟨rfl, statusWord_kind _ _⟩⟩
  · exact ⟨rfl, rfl, rfl, fun hf => absurd (State.succeeded_of_success rfl) hf⟩

end Sys2Proof.Machine

/-! SUPPORT. The round trip of a text through a carrier: the bitstream read back, and `LSB.EXT` on a copied OUT
(O26). -/

namespace Sys2Proof.Machine

/-! ### Text read back from a bitstream (41_text_bit_codec.md R112, R113) -/

theorem bitsToText_byte_append (b : Byte) (bits : List Bit) :
    bitsToText (bitsMsb b.toNat 8 ++ bits) = b.setWidth 21 :: bitsToText bits := by
  have hlen : (bitsMsb b.toNat 8 ++ bits).length / 8 = bits.length / 8 + 1 := by
    rw [List.length_append, bitsMsb_length]
    omega
  have hfirst : valMsb ((bitsMsb b.toNat 8 ++ bits).take 8) = b.toNat := by
    rw [List.take_left' (bitsMsb_length _ _), valMsb_bitsMsb b.isLt]
  have hrest (q : Nat) : (bitsMsb b.toNat 8 ++ bits).drop (8 * (q + 1)) = bits.drop (8 * q) := by
    rw [show 8 * (q + 1) = (bitsMsb b.toNat 8).length + 8 * q by rw [bitsMsb_length]; omega,
      List.drop_length_add_append]
  rw [bitsToText, hlen, List.range_succ_eq_map, List.map_cons, List.map_map, Nat.mul_zero, List.drop_zero, hfirst]
  simp only [Function.comp_def, Nat.succ_eq_add_one, hrest, BitVec.ofNat_toNat]
  rfl

/-- Whole bytes are read back as the code points of the bytes (R113). -/
theorem bitsToText_bytesToBits (bytes : List Byte) :
    bitsToText (bytesToBits bytes) = bytes.map (BitVec.setWidth 21) := by
  induction bytes with
  | nil => rfl
  | cons b bs ih => exact (bitsToText_byte_append b (bytesToBits bs)).trans (congrArg _ ih)

/-- A text of code points up to 0x7F is its own bytes. -/
theorem utf8s_map_setWidth_of_ascii {t : List CodePoint} (h : ∀ cp ∈ t, cp.toNat ≤ 0x7F) :
    (utf8s t).map (BitVec.setWidth 21) = t := by
  induction t with
  | nil => rfl
  | cons cp t ih =>
    obtain ⟨hcp, ht⟩ := List.forall_mem_cons.1 h
    have hbyte : (BitVec.ofNat 8 cp.toNat).setWidth 21 = cp := BitVec.eq_of_toNat_eq (by simp; omega)
    rw [utf8s, List.flatMap_cons, utf8_of_one_byte hcp, List.map_append, List.map_singleton, hbyte]
    exact congrArg (cp :: ·) (ih ht)

theorem utf8_ne_nil (cp : CodePoint) : utf8 cp ≠ [] := by
  unfold utf8
  split_ifs <;> exact List.cons_ne_nil _ _

theorem utf8s_ne_nil {t : List CodePoint} (h : t ≠ []) : utf8s t ≠ [] := by
  obtain ⟨cp, t, rfl⟩ := List.exists_cons_of_ne_nil h
  rw [utf8s, List.flatMap_cons]
  exact List.append_ne_nil_of_left_ne_nil (utf8_ne_nil cp) _

/-- The delimiter at the end of a text is an occurrence, so the first one is no later. -/
theorem exists_find_append (text dl : List CodePoint) :
    ∃ p, find (text ++ dl) dl = some p ∧ p ≤ text.length := by
  have hend : ((text ++ dl).drop text.length).take dl.length = dl := by
    rw [List.drop_left, List.take_length]
  cases hfind : find (text ++ dl) dl with
  | none => exact absurd hend (find_eq_none_iff.1 hfind text.length (List.length_append ▸ le_rfl))
  | some p =>
    obtain ⟨-, -, hfirst⟩ := find_eq_some_iff.1 hfind
    exact ⟨p, rfl, Nat.le_of_not_lt fun hlt => hfirst _ hlt hend⟩

/-! ### OUT copied to CAR (30_encoding.md R90) -/

/-- The state after the host's `.copy OUT, CAR`. -/
def State.outCopied (s : State) : State := { s with car := s.car.overwriteWith s.out }

theorem State.outCopied_car_get {s : State} (hwf : s.out.wf) {j : Nat} {v : Sample} (h : s.out.get j = some v) :
    s.outCopied.car.get j = some v := by
  rw [State.outCopied, Space.get_overwriteWith hwf, h]
  rfl

theorem bit0_setBit0 (v : Sample) (b : Bit) : bit0 (setBit0 v b) = b := by
  refine BitVec.eq_of_getLsbD_eq fun k hk => ?_
  obtain rfl : k = 0 := by omega
  rw [bit0, BitVec.getLsbD_extractLsb', setBit0_getLsbD_zero]
  simp

theorem setBit0_toNat_lt {v : Sample} (h : v.toNat < 2 ^ 8) (b : Bit) : (setBit0 v b).toNat < 2 ^ 8 := by
  refine Nat.lt_pow_two_of_testBit _ fun k hk => ?_
  rw [BitVec.testBit_toNat, setBit0_getLsbD_succ v b k (by omega), ← BitVec.testBit_toNat]
  exact Nat.testBit_lt_two_pow (h.trans_le (Nat.pow_le_pow_right (by decide) hk))

/-! ### `LSB.EXT` after `LSB.EMB` (42_lsb_carrier_codec.md R136) -/

section

variable {w : SampleWidth} {s t : State} (hs : s.Inv) (h : exec (.lsbEmb w) s = .next t) (ht : t.succeeded)
include hs h ht

theorem lsbEmb_copied_get {j : Nat} (hj : j < s.n.toNat) :
    ∃ c, s.car.get j = some c ∧
      t.outCopied.car.get j = some (match (bitsMsb s.blen.toNat 32 ++ s.bit.front s.blen.toNat)[j]? with
        | some b => setBit0 c b
        | none => c) := by
  obtain ⟨c, hc, hout⟩ := lsbEmb_out_get h ht hj
  exact ⟨c, hc, State.outCopied_car_get (exec_keeps_inv hs h).outWf hout⟩

theorem lsbEmb_copied_bit {j : Nat} {b : Bit} (hb : (bitsMsb s.blen.toNat 32 ++ s.bit.front s.blen.toNat)[j]? = some b)
    (hj : j < s.n.toNat) : ∃ v, t.outCopied.car.get j = some v ∧ bit0 v = b := by
  obtain ⟨c, -, hget⟩ := lsbEmb_copied_get hs h ht hj
  rw [hb] at hget
  exact ⟨_, hget, bit0_setBit0 c b⟩

omit hs in
theorem lsbEmb_succeeded_premises :
    s.blen.toNat + 32 ≤ s.n.toNat ∧ s.n.toNat ≤ s.cfg.capCar ∧ samplesFit w s.car s.n.toNat = true := by
  obtain ⟨-, rfl⟩ | ⟨hfit, hcap, -, -, -, hfits, -⟩ := execLsbEmb_next.1 h
  · cases (State.succeeded_of_status rfl).1 ht
  · exact ⟨hfit, hcap, hfits⟩

omit hs ht in
theorem lsbEmb_copied_registers :
    t.outCopied.n = s.n ∧ t.outCopied.cfg = s.cfg ∧ t.outCopied.delimiter = s.delimiter := by
  obtain ⟨-, rfl⟩ | ⟨-, -, -, -, -, -, rfl⟩ := execLsbEmb_next.1 h <;> exact ⟨rfl, rfl, rfl⟩

theorem lsbEmb_copied_carFits : t.outCopied.carFits w s.n.toNat := by
  rintro j hj v hv rfl
  obtain ⟨-, -, hfits⟩ := lsbEmb_succeeded_premises h ht
  obtain ⟨c, hc, hget⟩ := lsbEmb_copied_get hs h ht hj
  have hc8 := (samplesFit_iff hs.carWf).1 hfits j hj c hc rfl
  obtain rfl := Option.some.inj (hv.symm.trans hget)
  split
  · exact setBit0_toNat_lt hc8 _
  · exact hc8

theorem lsbEmb_copied_spellsLength : t.outCopied.spellsLength s.blen := by
  intro i hi
  obtain ⟨hfit, -, -⟩ := lsbEmb_succeeded_premises h ht
  have hb := embedded_getElem? s.blen (s.bit.front s.blen.toNat) i
  rw [if_pos hi] at hb
  obtain ⟨v, hv, hbit⟩ := lsbEmb_copied_bit hs h ht hb (by omega)
  refine ⟨v, hv, ?_⟩
  have hbit0 := congrArg (·.getLsbD 0) hbit
  simpa [bit0] using hbit0

theorem lsbEmb_copied_payload {i : Nat} (hi : i < s.blen.toNat) :
    ∃ v, t.outCopied.car.get (32 + i) = some v ∧ (s.bit.front s.blen.toNat)[i]? = some (bit0 v) := by
  obtain ⟨hfit, -, -⟩ := lsbEmb_succeeded_premises h ht
  have hb := embedded_getElem? s.blen (s.bit.front s.blen.toNat) (32 + i)
  rw [if_neg (by omega), Nat.add_sub_cancel_left, Space.front_getElem? hi] at hb
  obtain ⟨v, hv, hbit⟩ := lsbEmb_copied_bit hs h ht hb (by omega)
  exact ⟨v, hv, by rw [hbit, Space.front_getElem? hi]⟩

theorem lsbEmb_copied_carrierBits : carrierBits t.outCopied.car 32 s.blen.toNat = s.bit.front s.blen.toNat := by
  refine List.ext_getElem? fun i => ?_
  rcases Nat.lt_or_ge i s.blen.toNat with hi | hi
  · obtain ⟨v, hv, hbit⟩ := lsbEmb_copied_payload hs h ht hi
    rw [carrierBits_getElem? _ _ hi, Space.read_eq_of_get hv, hbit]
  · rw [List.getElem?_eq_none (by rwa [carrierBits_length]), List.getElem?_eq_none (by rwa [Space.front_length])]

theorem lsbEmb_copied_written : t.outCopied.car.written (List.range' 32 s.blen.toNat) = true := by
  refine Space.written_iff.2 fun j hj => ?_
  obtain ⟨hj, hj'⟩ := List.mem_range'_1.1 hj
  obtain ⟨v, hv, -⟩ := lsbEmb_copied_payload hs h ht (show j - 32 < s.blen.toNat by omega)
  exact ⟨v, by rwa [show 32 + (j - 32) = j by omega] at hv⟩

/-- `LSB.EXT` reads back the length that `LSB.EMB` wrote. -/
theorem lsbExt_of_copied :
    exec (.lsbExt w) t.outCopied = extractText s.blen.toNat { t.outCopied with hdr0 := s.blen } := by
  obtain ⟨hfit, hcap, -⟩ := lsbEmb_succeeded_premises h ht
  obtain ⟨hn, hcfg, -⟩ := lsbEmb_copied_registers h
  have hwf : t.outCopied.car.wf := Space.overwriteWith_wf (exec_keeps_inv hs h).carWf _
  refine execLsbExt_of_spellsLength ?_ ?_ hwf ?_ (lsbEmb_copied_spellsLength hs h ht)
  · rw [hn]
    omega
  · rwa [hn, hcfg]
  · rw [hn]
    exact lsbEmb_copied_carFits hs h ht

/-- The extract after an embed and a copy gives the embedded payload as a text, truncated. -/
theorem lsbExt_of_copied_succeeds {r : List CodePoint} {warn : Bool} (hpos : 0 < s.blen.toNat)
    (hr : truncateAt s.delimiter (bitsToText (s.bit.front s.blen.toNat)) = (r, warn)) (hcap : r.length ≤ s.cfg.capTxt) :
    ∃ u, exec (.lsbExt w) t.outCopied = .next u ∧ u.status = statusWord .success warn ∧ u.text = r := by
  obtain ⟨hfit, -, -⟩ := lsbEmb_succeeded_premises h ht
  obtain ⟨hn, hcfg, hdelim⟩ := lsbEmb_copied_registers h
  have hlen : r.length < 2 ^ 32 := by
    have hle := truncateAt_length_le s.delimiter (bitsToText (s.bit.front s.blen.toNat))
    simp only [hr, bitsToText_length, Space.front_length] at hle
    have hblen := s.blen.isLt
    omega
  rw [← hn] at hfit
  rw [← hcfg] at hcap
  rw [← hdelim, ← lsbEmb_copied_carrierBits hs h ht] at hr
  rw [lsbExt_of_copied hs h ht]
  refine ⟨_, extractText_next.2 (.inr ⟨hpos, hfit, lsbEmb_copied_written hs h ht, r, warn, hr, hcap, rfl⟩), rfl, ?_⟩
  exact State.text_of_holds (by rw [BitVec.toNat_ofNat, Nat.mod_eq_of_lt hlen]) (Space.store_holds _ 0 r)

theorem lsbExt_of_copied_fails (hzero : s.blen.toNat = 0) :
    ∃ u, exec (.lsbExt w) t.outCopied = .next u ∧ u.status = statusWord .invalidHeader false := by
  rw [lsbExt_of_copied hs h ht]
  exact ⟨_, extractText_next.2 (.inl ⟨by omega, rfl⟩), rfl⟩

end

/-- What a completed `TXT.ENC` leaves for `LSB.EMB` (R110). -/
theorem txtEnc_payload {s t : State} (h : exec .txtEnc s = .next t) :
    t.blen.toNat = 8 * (utf8s (s.text ++ s.delimiter)).length ∧ t.bit.front t.blen.toNat = s.encodedText := by
  obtain ⟨-, -, -, hlt, -, rfl⟩ := execTxtEnc_next.1 h
  have hblen : (BitVec.ofNat 32 s.encodedText.length).toNat = s.encodedText.length := by
    rw [BitVec.toNat_ofNat, Nat.mod_eq_of_lt hlt]
  refine ⟨hblen.trans s.encodedText_length, ?_⟩
  simp only [hblen]
  exact Space.front_of_holds (Space.store_holds _ 0 _)

theorem txtEnc_registers {s t : State} (h : exec .txtEnc s = .next t) :
    t.n = s.n ∧ t.cfg = s.cfg ∧ t.delimiter = s.delimiter ∧ s.tlen.toNat ≤ s.cfg.capTxt := by
  obtain ⟨hcap, -, -, -, -, rfl⟩ := execTxtEnc_next.1 h
  exact ⟨rfl, rfl, rfl, hcap⟩

theorem lsbEmb_status_eq_zero_iff {w : SampleWidth} {s t : State} (h : exec (.lsbEmb w) s = .next t) :
    t.status = 0 ↔ s.blen.toNat + 32 ≤ s.n.toNat := by
  obtain ⟨hshort, rfl⟩ | ⟨hfit, -, -, -, -, -, rfl⟩ := execLsbEmb_next.1 h
  · exact iff_of_false (show ¬statusWord .capacityExceeded false = 0 by decide) (by omega)
  · exact iff_of_true rfl hfit

/-- `SHOW.TXT` after `HIDE.TXT` and a copy: the bytes of text and delimiter as a text, truncated. -/
theorem lsbExt_of_hidden {w : SampleWidth} {s s₁ s₂ : State} (hs : s.Inv) (henc : exec .txtEnc s = .next s₁)
    (hemb : exec (.lsbEmb w) s₁ = .next s₂) (hok : s₂.status = 0) {r : List CodePoint} {warn : Bool}
    (hne : s.text ++ s.delimiter ≠ [])
    (hr : truncateAt s.delimiter ((utf8s (s.text ++ s.delimiter)).map (BitVec.setWidth 21)) = (r, warn))
    (hcap : r.length ≤ s.cfg.capTxt) :
    ∃ u, exec (.lsbExt w) s₂.outCopied = .next u ∧ u.status = statusWord .success warn ∧ u.text = r := by
  obtain ⟨hblen, hpayload⟩ := txtEnc_payload henc
  obtain ⟨-, hcfg, hdelim, -⟩ := txtEnc_registers henc
  have hpos : 0 < (utf8s (s.text ++ s.delimiter)).length := List.length_pos_of_ne_nil (utf8s_ne_nil hne)
  have htext : bitsToText (s₁.bit.front s₁.blen.toNat) = (utf8s (s.text ++ s.delimiter)).map (BitVec.setWidth 21) := by
    rw [hpayload, State.encodedText, bitsToText_bytesToBits]
  have hsucc : s₂.succeeded := State.succeeded_of_success (warn := false) hok
  exact lsbExt_of_copied_succeeds (exec_keeps_inv hs henc) hemb hsucc (by omega) (by rw [hdelim, htext, hr])
    (by rwa [hcfg])

/-- Settles O26. -/
theorem textInCarrierRoundTrip : Obligations.TextInCarrierRoundTrip := by
  intro s s₁ s₂ w hs henc hemb bytes shown
  obtain ⟨hblen, -⟩ := txtEnc_payload henc
  obtain ⟨hn, -, -, htlen⟩ := txtEnc_registers henc
  refine ⟨?embeds, fun hok htext hne hdelim => ?ascii, fun hok hne hcap => ?general, fun hok hnil => ?empty⟩
  case embeds => rw [lsbEmb_status_eq_zero_iff hemb, hblen, hn]
  case ascii =>
    obtain ⟨p, hfind, hp⟩ := exists_find_append s.text s.delimiter
    have hbytes : bytes.map (BitVec.setWidth 21) = s.text ++ s.delimiter :=
      utf8s_map_setWidth_of_ascii (List.forall_mem_append.2 ⟨htext, hdelim⟩)
    have hr : truncateAt s.delimiter (bytes.map (BitVec.setWidth 21)) = (s.text.take p, false) := by
      rw [hbytes, truncateAt_of_find_some hfind, List.take_append_of_le_length hp]
    have hcap : (s.text.take p).length ≤ s.cfg.capTxt := by
      rw [List.length_take, State.text_length]
      omega
    obtain ⟨s₃, hshown, hstatus, hs₃⟩ :=
      lsbExt_of_hidden hs henc hemb hok (List.append_ne_nil_of_right_ne_nil _ hne) hr hcap
    refine ⟨s₃, p, hshown, hstatus, hfind, hp, hs₃, ?_⟩
    rw [hs₃, hfind, Option.some.injEq, List.take_eq_self_iff]
    exact ⟨hp.antisymm, ge_of_eq⟩
  case general =>
    obtain ⟨s₃, hshown, hstatus, hs₃⟩ := lsbExt_of_hidden hs henc hemb hok hne rfl
      ((truncateAt_length_le _ _).trans (by rwa [List.length_map]))
    exact ⟨s₃, hshown, State.succeeded_of_success hstatus, hs₃⟩
  case empty =>
    have hzero : s₁.blen.toNat = 0 := by rw [hblen, hnil]; rfl
    exact lsbExt_of_copied_fails (exec_keeps_inv hs henc) hemb (State.succeeded_of_success (warn := false) hok) hzero

end Sys2Proof.Machine

/-! SUPPORT. What `TXT.DEC` reads, alone and after `TXT.ENC` (O19, O20). -/

namespace Sys2Proof.Machine

/-! ### `TXT.DEC` (41_text_bit_codec.md R112) -/

/-- A code point of a decoded text is a byte, and the 8 bits of its group are that byte's, most significant first. -/
theorem bitsToText_group (b : List Bit) {q : Nat} (hq : q < b.length / 8) :
    ∃ v, (bitsToText b)[q]? = some v ∧ v.toNat ≤ 255 ∧
      ∀ r, r < 8 → b[8 * q + r]? = some (v.extractLsb' (7 - r) 1) := by
  obtain ⟨group, hgroup⟩ : ∃ group, group = (b.drop (8 * q)).take 8 := ⟨_, rfl⟩
  have hlen : group.length = 8 := by rw [hgroup, List.length_take, List.length_drop]; omega
  have hlt : valMsb group < 256 := by simpa [hlen] using valMsb_lt group
  have hval : (BitVec.ofNat 21 (valMsb group)).toNat = valMsb group := by
    rw [BitVec.toNat_ofNat, Nat.mod_eq_of_lt (by omega)]
  refine ⟨BitVec.ofNat 21 (valMsb group), by rw [bitsToText_getElem? b hq, hgroup], by omega, fun r hr => ?_⟩
  have hbit : group[r]? = b[8 * q + r]? := by rw [hgroup, List.getElem?_take_of_lt hr, List.getElem?_drop]
  have hspelled : bitsMsb (valMsb group) 8 = group := by rw [← hlen, bitsMsb_valMsb]
  calc b[8 * q + r]? = (bitsMsb (valMsb group) 8)[r]? := by rw [hspelled, hbit]
    _ = some ((BitVec.ofNat 21 (valMsb group)).extractLsb' (7 - r) 1) := by
      rw [bitsMsb_getElem? hr, BitVec.extractLsb', hval]

/-- Settles O19: the whole groups are the elements that hold `bits`, and TXT takes their text from index 0. -/
theorem txtDecGivesOneCodePointPerByte : Obligations.TxtDecGivesOneCodePointPerByte := by
  refine ⟨rfl, fun s bits hlen hbit htxt hholds => ?_⟩
  have hcount : (bitsToText bits).length = s.blen.toNat / 8 := by rw [bitsToText_length]; omega
  have hfront : s.bit.front (8 * (s.blen.toNat / 8)) = bits := hlen ▸ Space.front_of_holds hholds
  have hwritten := Space.written_of_holds_of_length hholds hlen.symm
  refine ⟨_, execTxtDec_next.2 ⟨hbit, hwritten, htxt, rfl⟩, rfl, fun q hq => ?written, fun q hq => ?kept⟩
  case written =>
    obtain ⟨v, hv, hbyte⟩ := bitsToText_group bits (q := q) (by omega)
    have hget := Space.store_holds s.txt 0 (bitsToText bits) q (by omega)
    rw [Nat.zero_add, hv] at hget
    exact ⟨v, by rw [hfront, hget], hbyte⟩
  case kept => exact Space.get_store_of_not_mem (.inr (by rw [hfront]; omega))

/-! ### `TXT.ENC` then `TXT.DEC` (41_text_bit_codec.md R113) -/

theorem length_le_utf8s_length (t : List CodePoint) : t.length ≤ (utf8s t).length := by
  induction t with
  | nil => exact le_rfl
  | cons cp t ih =>
    have hpos : 0 < (utf8 cp).length := List.length_pos_of_ne_nil (utf8_ne_nil cp)
    simp only [utf8s, List.flatMap_cons, List.length_append, List.length_cons] at ih ⊢
    omega

theorem ascii_of_utf8_length_le_one {cp : CodePoint} (h : (utf8 cp).length ≤ 1) : cp.toNat ≤ 0x7F := by
  by_contra hcp
  have hcount := utf8_bit_count cp
  rw [if_neg hcp] at hcount
  split_ifs at hcount <;> omega

/-- A code point above 0x7F takes more than one byte, and none takes less, so a text with one is longer in bytes. -/
theorem ascii_of_utf8s_length_le {t : List CodePoint} (h : (utf8s t).length ≤ t.length) :
    ∀ cp ∈ t, cp.toNat ≤ 0x7F := by
  induction t with
  | nil => exact fun _ hcp => absurd hcp List.not_mem_nil
  | cons cp t ih =>
    have hpos : 0 < (utf8 cp).length := List.length_pos_of_ne_nil (utf8_ne_nil cp)
    have hle := length_le_utf8s_length t
    simp only [utf8s, List.flatMap_cons, List.length_append, List.length_cons] at h hle ih
    exact List.forall_mem_cons.2 ⟨ascii_of_utf8_length_le_one (by omega), ih (by omega)⟩

/-- The bytes of a text are its code points exactly for ASCII text: other text has more bytes than code points. -/
theorem utf8s_map_setWidth_eq_iff {t : List CodePoint} :
    (utf8s t).map (BitVec.setWidth 21) = t ↔ ∀ cp ∈ t, cp.toNat ≤ 0x7F := by
  refine ⟨fun h => ascii_of_utf8s_length_le ?_, utf8s_map_setWidth_of_ascii⟩
  rw [← List.length_map (BitVec.setWidth 21), h]

/-- A completed `TXT.ENC` leaves every element of BIT`[0 .. BLEN)` written and `BLEN` within `CAP_BIT`. -/
theorem txtEnc_bit_written {s t : State} (h : exec .txtEnc s = .next t) :
    t.blen.toNat ≤ t.cfg.capBit ∧ t.bit.written (List.range t.blen.toNat) = true := by
  obtain ⟨-, -, -, hlt, hcap, rfl⟩ := execTxtEnc_next.1 h
  have hblen : (BitVec.ofNat 32 s.encodedText.length).toNat = s.encodedText.length := by
    rw [BitVec.toNat_ofNat, Nat.mod_eq_of_lt hlt]
  exact ⟨hblen.trans_le hcap, Space.written_of_holds_of_length (Space.store_holds s.bit 0 s.encodedText) hblen⟩

/-- Settles O20. -/
theorem textCodecRoundTrip : Obligations.TextCodecRoundTrip := by
  intro s s₁ henc hcap
  obtain ⟨hblen, hpayload⟩ := txtEnc_payload henc
  obtain ⟨-, hcfg, -, -⟩ := txtEnc_registers henc
  obtain ⟨hbit, hwritten⟩ := txtEnc_bit_written henc
  have hgroups : s₁.blen.toNat / 8 = (utf8s (s.text ++ s.delimiter)).length := by omega
  have hwhole : 8 * (s₁.blen.toNat / 8) = s₁.blen.toNat := by omega
  have hdecoded : bitsToText (s₁.bit.front (8 * (s₁.blen.toNat / 8))) =
      (utf8s (s.text ++ s.delimiter)).map (BitVec.setWidth 21) := by
    rw [hwhole, hpayload, State.encodedText, bitsToText_bytesToBits]
  have hdec := execTxtDec_next.2 ⟨hbit, hwhole.symm ▸ hwritten, by rwa [hgroups, hcfg], rfl⟩
  rw [hdecoded, hgroups] at hdec
  have hlt : (utf8s (s.text ++ s.delimiter)).length < 2 ^ 32 := by
    have := s₁.blen.isLt
    omega
  refine ⟨_, hdec, rfl, ?_⟩
  rw [State.text_of_holds (by simpa using hlt) (Space.store_holds s₁.txt 0 _)]
  exact ⟨rfl, utf8s_map_setWidth_eq_iff⟩

end Sys2Proof.Machine

/-! SUPPORT. What `CFG.DELIM` writes (O21). -/

namespace Sys2Proof.Machine

/-- A text longer than the register file fails, whatever `CAP_TXT` is (42_lsb_carrier_codec.md R130; log 6). -/
theorem execCfgDelim_of_too_long {s : State} (h : s.cfg.delimMax < s.tlen.toNat) :
    exec .cfgDelim s = .next { s with status := statusWord .configurationError false } :=
  execCfgDelim_next.2 (.inl ⟨h, rfl⟩)

/-- The register file after a text is written over its front: the text, then what stood beyond it. -/
theorem append_drop_length_getElem? {α : Type} (text file : List α) (j : Nat) :
    (text ++ file.drop text.length)[j]? = if j < text.length then text[j]? else file[j]? := by
  split
  case isTrue hj => exact List.getElem?_append_left hj
  case isFalse hj =>
    have hj : text.length ≤ j := Nat.not_lt.1 hj
    rw [List.getElem?_append_right hj, List.getElem?_drop, Nat.add_sub_cancel' hj]

/-- Settles O21: the failure is judged first, then the refusal; where neither applies, DELIM's front takes the text and
`DLEN` its length. -/
theorem cfgDelimSetsTheDelimiter : Obligations.CfgDelimSetsTheDelimiter := by
  refine ⟨rfl, fun s hlong => execCfgDelim_of_too_long hlong, fun s text hlen hmax hcap hholds => ?_⟩
  have htext : s.text = text := State.text_of_holds hlen hholds
  have hwritten := Space.written_of_holds_of_length hholds hlen
  rw [← hlen] at hmax hcap
  refine ⟨fun hscalar => execCfgDelim_refused.2 ⟨hmax, .inr ⟨hcap, .inr ⟨hwritten, htext ▸ hscalar, rfl⟩⟩⟩,
    fun hscalar => ?_⟩
  have hexec := execCfgDelim_next.2 (.inr ⟨hmax, hcap, hwritten, htext ▸ hscalar, rfl⟩)
  rw [htext, hlen] at hexec
  refine ⟨_, hexec, rfl, fun j hj => ?written, fun j hj => ?kept, ?delimiter⟩
  case written => exact (append_drop_length_getElem? text s.delim j).trans (if_pos hj)
  case kept => exact (append_drop_length_getElem? text s.delim j).trans (if_neg (Nat.not_lt.2 hj))
  case delimiter => exact List.take_left' hlen.symm

end Sys2Proof.Machine

/-! SUPPORT. The pixel codec: what `CFG.PIX` writes, the closed form of `PIX.EMB`, and `PIX.EXT` on a copied stego image
(O27, O28, O29, O32). -/

namespace Sys2Proof.Machine

/-! ### `CFG.PIX` (43_pixel_substitution_codec.md R160) -/

theorem pixcfgWord_eq_ofNat : ∀ ch < 3, ∀ d < 5, pixcfgWord ch d = BitVec.ofNat 32 (4 * d + ch) := by decide

/-- Settles O27: of the well-formed operands the legal ones give `PIXCFG` its value, the others a ConfigurationError. -/
theorem cfgPixWritesOnlyLegalConfigurations : Obligations.CfgPixWritesOnlyLegalConfigurations := by
  intro s ch d hch hd
  refine ⟨decodeInvertsEncode (.cfgPix ch d) (by simp [Instr.wf, hch, hd]), fun hd1 hd4 hch2 => ?legal,
    fun hillegal => execCfgPix_of_illegal (by omega) s⟩
  case legal =>
    have hch3 : ch < 3 := by omega
    have hd5 : d < 5 := by omega
    exact ⟨_, execCfgPix_next.2 (.inr ⟨hd1, hd4, hch2, rfl⟩), rfl, pixcfgWord_channel ch hch3 d hd5,
      pixcfgWord_bitDepth ch hch3 d hd5, pixcfgWord_eq_ofNat ch hch3 d hd5⟩

/-! ### The failures of `PIX.EMB` (R161) -/

/-- Settles O28. -/
theorem pixEmbRejectsSecretsThatDoNotFit : Obligations.PixEmbRejectsSecretsThatDoNotFit :=
  fun _ hsize => execPixEmb_next.2 (.inl ⟨by omega, rfl⟩)

/-! ### The two substitutions, bit by bit (R162) -/

/-- Bit `k` of the dimension header (30_encoding.md R83): `SW`, then `SH`, most significant bits first. -/
theorem dimensionHeader_getD (sw sh : Word) {k : Nat} (hk : k < 64) :
    (dimensionHeader sw.toNat sh.toNat).getD k 0 =
      BitVec.ofBool (if k < 32 then sw.getLsbD (31 - k) else sh.getLsbD (63 - k)) := by
  rw [dimensionHeader, List.getD_eq_getElem?_getD, embedded_getElem?]
  split
  · rfl
  · rw [bitsMsb_word_getElem? sh (by omega), show 31 - (k - 32) = 63 - k by omega]
    rfl

theorem clearLow_getLsbD_of_lt {d k : Nat} (hd : d < 8) (hk : k < d) (b : Byte) :
    (b &&& ~~~lowMask d).getLsbD k = false := by
  rw [BitVec.getLsbD_and, BitVec.getLsbD_not, lowMask_getLsbD hd, decide_eq_true hk, Bool.not_true, Bool.and_false,
    Bool.and_false]

/-- Bit `d` of a header byte is the header bit. -/
theorem headerByte_getLsbD_self {d : Nat} (hd : d < 7) (hb : Bit) (b : Byte) :
    (headerByte d hb b).getLsbD d = hb.getLsbD 0 := by
  have hbit : (hb.setWidth 8 <<< d).getLsbD d = hb.getLsbD 0 := by
    simp [show d < 8 by omega]
  rw [headerByte, BitVec.getLsbD_or, clearLow_getLsbD_of_lt (by omega) (Nat.lt_succ_self d), hbit, Bool.false_or]

/-- The low `d` bits of a header byte are free for the payload. -/
theorem headerByte_getLsbD_of_gt {d k : Nat} (hd : d < 7) (hk : k < d) (hb : Bit) (b : Byte) :
    (headerByte d hb b).getLsbD k = false := by
  have hbit : (hb.setWidth 8 <<< d).getLsbD k = false := by
    simp [hk]
  rw [headerByte, BitVec.getLsbD_or, clearLow_getLsbD_of_lt (by omega) (by omega), hbit, Bool.false_or]

/-- R162's "both" row: on a header byte the payload step clears nothing. -/
theorem payloadByte_headerByte {d : Nat} (hd : d < 7) (hb : Bit) (secret b : Byte) :
    payloadByte d secret (headerByte d hb b) = headerByte d hb b ||| secret >>> (8 - d) := by
  have hclear : headerByte d hb b &&& ~~~lowMask d = headerByte d hb b := by
    refine BitVec.eq_of_getLsbD_eq fun k _ => ?_
    rcases Nat.lt_or_ge k d with hk | hk
    · rw [clearLow_getLsbD_of_lt (by omega) hk, headerByte_getLsbD_of_gt hd hk]
    · exact clearLow_getLsbD (by omega) hk _
  rw [payloadByte, hclear]

/-- The low `d` bits of a payload byte are the secret byte's top `d` bits. -/
theorem payloadByte_getLsbD_of_lt {d k : Nat} (hd : d < 8) (hk : k < d) (secret b : Byte) :
    (payloadByte d secret b).getLsbD k = secret.getLsbD (8 - d + k) := by
  rw [payloadByte, BitVec.getLsbD_or, clearLow_getLsbD_of_lt hd hk, Bool.false_or, BitVec.getLsbD_ushiftRight]

/-- R164 for one byte: the secret byte with all but its top `d` bits cleared, whatever cover byte it was put in. -/
theorem reconByte_payloadByte {d : Nat} (hd : d < 8) (secret b : Byte) :
    reconByte d (payloadByte d secret b) = secret &&& ((0xFF : Byte) <<< (8 - d)) := by
  have hff : (0xFF : Byte) = BitVec.allOnes 8 := rfl
  refine BitVec.eq_of_getLsbD_eq fun k hk => ?_
  rw [reconByte, hff, BitVec.and_allOnes, BitVec.getLsbD_and, BitVec.getLsbD_shiftLeft, BitVec.getLsbD_shiftLeft,
    BitVec.getLsbD_allOnes]
  rcases Nat.lt_or_ge k (8 - d) with hlow | htop
  · simp [hlow]
  · have hkd : k - (8 - d) < d := by omega
    rw [BitVec.getLsbD_and, lowMask_getLsbD hd, payloadByte_getLsbD_of_lt hd hkd, Nat.add_sub_cancel' htop]
    simp [hk, hkd, show ¬k < 8 - d by omega, show k - (8 - d) < 8 by omega]

theorem sampleByte_setWidth (b : Byte) : sampleByte (b.setWidth 16) = b := by
  simp [sampleByte]

/-! ### The closed form of `PIX.EMB` (R161, R162) -/

theorem State.headerStep_of_header {s : State} {x : Nat} (hx : x < 64) (b : Byte) :
    s.headerStep 0 x s.channel b =
      headerByte s.bitDepth (BitVec.ofBool (if x < 32 then s.sw.getLsbD (31 - x) else s.sh.getLsbD (63 - x))) b := by
  rw [State.headerStep, if_pos ⟨rfl, hx, rfl⟩, dimensionHeader_getD s.sw s.sh hx]

theorem State.headerStep_of_not_header {s : State} {y x c : Nat} (h : ¬(y = 0 ∧ x < 64 ∧ c = s.channel)) (b : Byte) :
    s.headerStep y x c b = b :=
  if_neg h

theorem State.stegoByte_of_payload {s : State} {y x : Nat} (h : y < s.sh.toNat ∧ x < s.sw.toNat) (c : Nat) (b : Byte) :
    s.stegoByte y x c b =
      payloadByte s.bitDepth (s.sec.read (pixelIndex s.sw.toNat y x c)) (s.headerStep y x c b) :=
  if_pos h

theorem State.stegoByte_of_not_payload {s : State} {y x : Nat} (h : ¬(y < s.sh.toNat ∧ x < s.sw.toNat)) (c : Nat)
    (b : Byte) : s.stegoByte y x c b = s.headerStep y x c b :=
  if_neg h

/-- The payload step leaves the bits from `BIT_DEPTH` up, the header bit among them, as the header step made them. -/
theorem State.stegoByte_getLsbD_of_le {s : State} {k : Nat} (hk : s.bitDepth ≤ k) (y x c : Nat) (b : Byte) :
    (s.stegoByte y x c b).getLsbD k = (s.headerStep y x c b).getLsbD k := by
  by_cases hp : y < s.sh.toNat ∧ x < s.sw.toNat
  · rw [State.stegoByte_of_payload hp, payloadByte_getLsbD_of_le s.bitDepth_lt hk]
  · rw [State.stegoByte_of_not_payload hp]

theorem setWidth_ofBool (hb : Bool) : (BitVec.ofBool hb).setWidth 8 = if hb then (1 : Byte) else 0 := by
  cases hb <;> rfl

/-- R162's table, by whether the byte is a header byte and whether it is a payload byte. -/
theorem State.stegoByte_eq_table {s : State} (hd : s.bitDepth ≤ 4) {y x c : Nat} {secret : Byte}
    (hsec : y < s.sh.toNat → x < s.sw.toNat → s.sec.read (pixelIndex s.sw.toNat y x c) = secret) (b : Byte) :
    let d := s.bitDepth
    let hb : Byte := if (if x < 32 then s.sw.getLsbD (31 - x) else s.sh.getLsbD (63 - x)) then 1 else 0
    let isHeader := y = 0 ∧ x < 64 ∧ c = s.channel
    let isPayload := y < s.sh.toNat ∧ x < s.sw.toNat
    s.stegoByte y x c b =
      if isHeader ∧ ¬isPayload then (b &&& ~~~lowMask (d + 1)) ||| hb <<< d
      else if isPayload ∧ ¬isHeader then (b &&& ~~~lowMask d) ||| secret >>> (8 - d)
      else if isHeader ∧ isPayload then (b &&& ~~~lowMask (d + 1)) ||| hb <<< d ||| secret >>> (8 - d)
      else b := by
  intro d hb isHeader isPayload
  have hheader (h : isHeader) : s.headerStep y x c b =
      headerByte d (BitVec.ofBool (if x < 32 then s.sw.getLsbD (31 - x) else s.sh.getLsbD (63 - x))) b := by
    obtain ⟨rfl, hx, rfl⟩ := h
    exact State.headerStep_of_header hx b
  by_cases hp : isPayload
  · rw [State.stegoByte_of_payload hp, hsec hp.1 hp.2]
    by_cases hh : isHeader
    · rw [if_neg (fun h => h.2 hp), if_neg (fun h => h.2 hh), if_pos ⟨hh, hp⟩, hheader hh,
        payloadByte_headerByte (show d < 7 by omega), headerByte, setWidth_ofBool]
    · rw [if_neg (fun h => hh h.1), if_pos ⟨hp, hh⟩, State.headerStep_of_not_header hh, payloadByte]
  · rw [State.stegoByte_of_not_payload hp]
    by_cases hh : isHeader
    · rw [if_pos ⟨hh, hp⟩, hheader hh, headerByte, setWidth_ofBool]
    · rw [if_neg (fun h => hh h.1), if_neg (fun h => hp h.1), if_neg (fun h => hh h.1),
        State.headerStep_of_not_header hh]

theorem Space.read_of_holds {w : Nat} {m : Space w} {xs : List (BitVec w)} (h : m.holds 0 xs) {i : Nat}
    (hi : i < xs.length) : m.read i = xs.getD i 0 := by
  rw [Space.read_eq_of_get (Space.get_of_holds h hi), List.getD_eq_getElem _ _ hi]

/-- Settles O29: OUT takes the stego image, whose bytes are R162's table. -/
theorem pixEmbClosedForm : Obligations.PixEmbClosedForm := by
  rintro s cover secret H W SH SW d ⟨hch, -, hd, -⟩ hw hsh hsw hh hcapCar hcapSec hwf hcover hcar hwide hsecret hsec
  have hfits : samplesFit .img s.car (3 * H * W) = true := by
    refine (samplesFit_iff hwf).2 fun i hi v hv _ => hwide v ?_
    rw [Space.get_of_holds hcar (hcover ▸ hi)] at hv
    exact Option.some.inj hv ▸ List.getElem_mem _
  have hexec := execPixEmb_next.2 (.inr ⟨hw, hsh, hsw, hh, hcapCar, hcapSec,
    Space.written_of_holds_of_length hcar hcover.symm, Space.written_of_holds_of_length hsec hsecret.symm, hfits, rfl⟩)
  refine ⟨_, hexec, rfl, fun y x c hy hx hc => ?bytes, fun a ha => Space.get_store_of_not_mem (.inr (by simpa using ha))⟩
  case bytes =>
    intro cov sec hb isHeader isPayload headerClear payloadClear
    obtain ⟨v, hv, -, hout⟩ := pixEmb_out_get hwf (by omega) hexec (State.succeeded_of_success rfl) hy hx hc
    have hcov : sampleByte v = cov := by
      rw [← Space.read_eq_of_get hv, Space.read_of_holds hcar (hcover ▸ pixelIndex_lt hy hx hc)]
      rfl
    have hsecret' (hy' : y < SH) (hx' : x < SW) : s.sec.read (pixelIndex SW y x c) = sec :=
      Space.read_of_holds hsec (hsecret ▸ pixelIndex_lt hy' hx' hc)
    rw [hcov] at hout
    exact hout.trans (congrArg (fun b : Byte => some (b.setWidth 16)) (State.stegoByte_eq_table hd hsecret' cov))

/-! ### `PIX.EXT` after `PIX.EMB` and a copy (R164, R165) -/

section

variable {s t : State} (hs : s.Inv) (h : exec .pixEmb s = .next t) (ht : t.succeeded)

include h in
theorem pixEmb_copied_frame :
    t.outCopied = { s with car := t.outCopied.car, out := t.out, status := t.status } := by
  obtain ⟨-, rfl⟩ | ⟨-, -, -, -, -, -, -, -, -, rfl⟩ := execPixEmb_next.1 h <;> rfl

include h ht in
theorem pixEmb_succeeded_premises :
    s.secretFits ∧ s.imagesWithin ∧ s.sec.written (List.range (3 * s.sh.toNat * s.sw.toNat)) = true := by
  obtain ⟨-, rfl⟩ | ⟨hw, hsh, hsw, hh, hcar, hsec, -, hwritten, -, -⟩ := execPixEmb_next.1 h
  · cases (State.succeeded_of_status rfl).1 ht
  · exact ⟨⟨hw, hsh, hsw, hh⟩, ⟨hcar, hsec⟩, hwritten⟩

include hs h ht

/-- Byte `(y, x, c)` of the stego image, in CAR. -/
theorem pixEmb_copied_get {y x c : Nat} (hy : y < s.h.toNat) (hx : x < s.w.toNat) (hc : c < 3) :
    ∃ b, t.outCopied.car.get (pixelIndex s.w.toNat y x c) = some ((s.stegoByte y x c b).setWidth 16) := by
  obtain ⟨hch, -⟩ := hs.pixcfg
  obtain ⟨v, -, -, hout⟩ := pixEmb_out_get hs.carWf (by omega) h ht hy hx hc
  exact ⟨sampleByte v, State.outCopied_car_get (exec_keeps_inv hs h).outWf hout⟩

theorem pixEmb_copied_carFits : t.outCopied.carFits .img (3 * s.h.toNat * s.w.toNat) := by
  intro a ha v hv _
  have hout : t.out.get a = (s.stegoImage.map (BitVec.setWidth 16))[a]? := by
    obtain ⟨-, rfl⟩ | ⟨-, -, -, -, -, -, -, -, -, rfl⟩ := execPixEmb_next.1 h
    · cases (State.succeeded_of_status rfl).1 ht
    · exact Space.get_store_zero s.out (by simpa using ha)
  rw [List.getElem?_map, List.getElem?_eq_getElem (by simpa using ha)] at hout
  obtain rfl := Option.some.inj (hv.symm.trans (State.outCopied_car_get (exec_keeps_inv hs h).outWf hout))
  rw [BitVec.toNat_setWidth_of_le (by decide)]
  exact BitVec.isLt _

/-- Bit `BIT_DEPTH` of header byte `k` is bit `k` of the dimension header, whether or not the byte is also payload. -/
theorem pixEmb_copied_headerBit {k : Nat} (hk : k < 64) :
    ∃ v, t.outCopied.car.get (3 * k + s.channel) = some v ∧
      v.getLsbD s.bitDepth = if k < 32 then s.sw.getLsbD (31 - k) else s.sh.getLsbD (63 - k) := by
  obtain ⟨hch, -, hd, -⟩ := hs.pixcfg
  obtain ⟨⟨hw, -, -, hh⟩, -, -⟩ := pixEmb_succeeded_premises h ht
  obtain ⟨b, hb⟩ := pixEmb_copied_get hs h ht hh (show k < s.w.toNat by omega) (show s.channel < 3 by omega)
  rw [pixelIndex_row_zero] at hb
  refine ⟨_, hb, ?_⟩
  rw [BitVec.getLsbD_setWidth, decide_eq_true (by omega), Bool.true_and, State.stegoByte_getLsbD_of_le le_rfl,
    State.headerStep_of_header hk, headerByte_getLsbD_self (by omega), BitVec.getLsbD_ofBool]
  simp

theorem pixEmb_copied_spellsDimensions : t.outCopied.spellsDimensions s.sw s.sh := by
  rw [pixEmb_copied_frame h]
  refine ⟨fun k hk => ?_, fun k hk => ?_⟩
  · obtain ⟨v, hv, hbit⟩ := pixEmb_copied_headerBit hs h ht (show k < 64 by omega)
    rw [if_pos hk] at hbit
    exact ⟨v, hv, hbit⟩
  · obtain ⟨v, hv, hbit⟩ := pixEmb_copied_headerBit hs h ht (show 32 + k < 64 by omega)
    rw [if_neg (by omega), show 63 - (32 + k) = 31 - k by omega] at hbit
    exact ⟨v, hv, hbit⟩

/-- What `PIX.EXT` makes of stego byte `(y, x, c)` where the secret has that byte (R164). -/
theorem pixEmb_copied_payload {y x c : Nat} (hy : y < s.sh.toNat) (hx : x < s.sw.toNat) (hc : c < 3) :
    ∃ v b, t.outCopied.car.get (pixelIndex s.w.toNat y x c) = some v ∧
      s.sec.get (pixelIndex s.sw.toNat y x c) = some b ∧
      reconByte s.bitDepth (sampleByte v) = b &&& ((0xFF : Byte) <<< (8 - s.bitDepth)) := by
  obtain ⟨⟨-, hsh, hsw, -⟩, -, hwritten⟩ := pixEmb_succeeded_premises h ht
  obtain ⟨cov, hv⟩ := pixEmb_copied_get hs h ht (hy.trans_le hsh) (hx.trans_le hsw) hc
  obtain ⟨b, hb⟩ := Space.written_range_iff.1 hwritten _ (pixelIndex_lt hy hx hc)
  refine ⟨_, b, hv, hb, ?_⟩
  rw [sampleByte_setWidth, State.stegoByte_of_payload ⟨hy, hx⟩, Space.read_eq_of_get hb,
    reconByte_payloadByte s.bitDepth_lt]

/-- `PIX.EXT` reads back the dimensions that `PIX.EMB` wrote. -/
theorem pixExt_of_copied : exec .pixExt t.outCopied = extractImage s.sw.toNat s.sh.toNat
    { s with car := t.outCopied.car, out := t.out, hdr0 := s.sw, hdr1 := s.sh, status := t.status } := by
  obtain ⟨⟨hw, -, -, hh⟩, ⟨hcap, -⟩, -⟩ := pixEmb_succeeded_premises h ht
  have hwf : t.outCopied.car.wf := Space.overwriteWith_wf (exec_keeps_inv hs h).carWf _
  have hfits := pixEmb_copied_carFits hs h ht
  have hspell := pixEmb_copied_spellsDimensions hs h ht
  rw [pixEmb_copied_frame h] at hspell ⊢
  exact execPixExt_of_spellsDimensions hw hh hcap hwf hfits hspell

theorem pixExt_of_copied_succeeds (hsw : 1 ≤ s.sw.toNat) (hsh : 1 ≤ s.sh.toNat) :
    ∃ recon, exec .pixExt t.outCopied = .next { s with
        car := t.outCopied.car, out := t.out, hdr0 := s.sw, hdr1 := s.sh, recon := recon, status := 0 } ∧
      ∀ y x c, y < s.sh.toNat → x < s.sw.toNat → c < 3 → recon.get (pixelIndex s.sw.toNat y x c) =
        (s.sec.get (pixelIndex s.sw.toNat y x c)).map fun b => b &&& ((0xFF : Byte) <<< (8 - s.bitDepth)) := by
  obtain ⟨⟨-, hshH, hswW, -⟩, ⟨-, hcap⟩, -⟩ := pixEmb_succeeded_premises h ht
  have hwritten : t.outCopied.car.written
      ((pixels s.sh.toNat s.sw.toNat).map fun p => pixelIndex s.w.toNat p.1 p.2.1 p.2.2) = true := by
    refine Space.written_iff.2 (List.forall_mem_map.2 fun p hp => ?_)
    obtain ⟨hy, hx, hc⟩ := mem_pixels.1 hp
    obtain ⟨v, -, hv, -⟩ := pixEmb_copied_payload hs h ht hy hx hc
    exact ⟨v, hv⟩
  have hext := (pixExt_of_copied hs h ht).trans
    (extractImage_next.2 (.inr ⟨hsw, hsh, hswW, hshH, hcap, _, rfl, hwritten, rfl⟩))
  rw [BitVec.ofNat_toNat, BitVec.ofNat_toNat, BitVec.setWidth_eq, BitVec.setWidth_eq] at hext
  refine ⟨_, hext, fun y x c hy hx hc => ?_⟩
  obtain ⟨v, b, hv, hb, hbyte⟩ := pixEmb_copied_payload hs h ht hy hx hc
  rw [List.map_map, Space.get_store_pixels _ _ hy hx hc, hb, Option.map_some, ← hbyte, Function.comp_apply,
    Space.read_eq_of_get hv]
  rfl

theorem pixExt_of_copied_fails (hempty : ¬(1 ≤ s.sw.toNat ∧ 1 ≤ s.sh.toNat)) :
    exec .pixExt t.outCopied = .next { s with
      car := t.outCopied.car, out := t.out, hdr0 := s.sw, hdr1 := s.sh, status := 2 } :=
  (pixExt_of_copied hs h ht).trans (extractImage_next.2 (.inl ⟨fun hrange => hempty ⟨hrange.1, hrange.2.1⟩, rfl⟩))

end

/-- Settles O32: the copied image spells the secret's dimensions, and its payload bytes give the secret's top bits. -/
theorem imageInImageRoundTrip : Obligations.ImageInImageRoundTrip := by
  intro s t hs h hok
  have ht : t.succeeded := State.succeeded_of_success (warn := false) hok
  by_cases hne : 1 ≤ s.sw.toNat ∧ 1 ≤ s.sh.toNat
  · obtain ⟨recon, hext, hrecon⟩ := pixExt_of_copied_succeeds hs h ht hne.1 hne.2
    exact ⟨_, hext, rfl, rfl, rfl, rfl, iff_of_true rfl hne, fun hfail => absurd rfl hfail, fun _ => hrecon⟩
  · exact ⟨_, pixExt_of_copied_fails hs h ht hne, rfl, rfl, rfl, rfl,
      iff_of_false (show ¬(2 : Word) = 0 by decide) hne, fun _ => ⟨rfl, rfl⟩,
      fun hzero => absurd hzero (show ¬(2 : Word) = 0 by decide)⟩

end Sys2Proof.Machine

/-! SUPPORT. How a command ends: which kind it raises, exactly when, and for which reasons it is refused; none faults
(O39, O41). -/

namespace Sys2Proof.Machine

/-! ### The kind a command raises (60_exceptions.md R190, R191) -/

section

variable {t : State} {failed : Prop} [Decidable failed]

theorem State.kindField_of_status {k : Kind} {warn : Bool} (h : t.status = statusWord k warn) :
    t.kindField = (kindCode k).setWidth 3 := by
  rw [State.kindField, h, statusWord_kind]

theorem State.kindField_eq_ite_of_failure {k : Kind} (hstatus : t.status = statusWord k false) (hf : failed) :
    t.kindField = if failed then (kindCode k).setWidth 3 else 0 := by
  rw [if_pos hf, State.kindField_of_status hstatus]

/-- Whatever kind the command would raise, and whether or not it gives the warning. -/
theorem State.kindField_eq_ite_of_success {warn : Bool} {code : BitVec 3} (hstatus : t.status = statusWord .success warn)
    (hf : ¬ failed) : t.kindField = if failed then code else 0 := by
  rw [if_neg hf, State.kindField_of_status hstatus]
  rfl

end

theorem carrierBits_zero (car : Space 16) (n : Nat) : carrierBits car 0 n = (car.front n).map bit0 := by
  rw [carrierBits, Space.front, List.map_map, List.range_eq_range']
  rfl

/-- The 64 header bytes stand one pixel after the other in row 0 (30_encoding.md R84). -/
theorem State.imageHeader_eq_row_zero (s : State) : s.imageHeader =
    (List.range 64).map fun k => headerBit s.bitDepth (sampleByte (s.car.read (3 * k + s.channel))) := by
  simp only [State.imageHeader, pixelIndex_row_zero]

theorem extractText_kind {m : Nat} {s t : State} (h : extractText m s = .next t) :
    t.kindField = if m = 0 ∨ s.n.toNat < m + 32 then 2 else 0 := by
  obtain ⟨hm, rfl⟩ | ⟨hpos, hm, -, _, _, -, -, rfl⟩ := extractText_next.1 h
  · exact State.kindField_eq_ite_of_failure (k := .invalidHeader) rfl (by omega)
  · exact State.kindField_eq_ite_of_success rfl (by omega)

theorem execLsbExt_kind {w : SampleWidth} {s t : State} {m : Nat} (hm : m = valMsb (carrierBits s.car 0 32))
    (h : execLsbExt w s = .next t) :
    t.kindField = if s.n.toNat < 32 ∨ m = 0 ∨ s.n.toNat < m + 32 then 2 else 0 := by
  obtain ⟨hn, rfl⟩ | ⟨hn, -, -, -, _, hm', -, hread⟩ := execLsbExt_next.1 h
  · exact State.kindField_eq_ite_of_failure (k := .invalidHeader) rfl (.inl hn)
  · obtain rfl := hm'.trans hm.symm
    simpa only [Nat.not_lt.2 hn, false_or] using extractText_kind hread

theorem extractImage_kind {sw sh : Nat} {s t : State} (h : extractImage sw sh s = .next t) :
    t.kindField = if sw = 0 ∨ sh = 0 ∨ s.w.toNat < sw ∨ s.h.toNat < sh then 2 else 0 := by
  obtain ⟨hdim, rfl⟩ | ⟨hsw, hsh, hw, hh, -, _, -, -, rfl⟩ := extractImage_next.1 h
  · exact State.kindField_eq_ite_of_failure (k := .invalidHeader) rfl (by omega)
  · exact State.kindField_eq_ite_of_success rfl (by omega)

theorem execPixExt_kind {s t : State} {sw sh : Nat} (hsw : sw = valMsb (s.imageHeader.take 32))
    (hsh : sh = valMsb (s.imageHeader.drop 32)) (h : execPixExt s = .next t) :
    t.kindField =
      if s.w.toNat < 64 ∨ s.h.toNat < 1 ∨ sw = 0 ∨ sh = 0 ∨ s.w.toNat < sw ∨ s.h.toNat < sh then 2 else 0 := by
  obtain ⟨hsmall, rfl⟩ | ⟨hw, hh, -, -, -, _, _, hsw', hsh', -, -, hread⟩ := execPixExt_next.1 h
  · exact State.kindField_eq_ite_of_failure (k := .invalidHeader) rfl (by omega)
  · obtain rfl := hsw'.trans hsw.symm
    obtain rfl := hsh'.trans hsh.symm
    simpa only [Nat.not_lt.2 hw, Nat.not_lt.2 hh, false_or] using extractImage_kind hread

/-- Settles O39: each next state of a command is a failure or a success by the inversion of its meaning, and the
condition of the failure is R191's. -/
theorem eachCommandRaisesItsKindExactlyWhen : Obligations.EachCommandRaisesItsKindExactlyWhen := by
  intro s t
  refine ⟨fun h => ?cfgDelim, fun ch d hch _ h => ?cfgPix, fun h => ?txtEnc, fun h => ?txtDec, fun w h => ?lsbEmb,
    fun w h => ?lsbExt, fun h => ?pixEmb, fun h => ?pixExt, fun c hrow h => ?illegal⟩
  case cfgDelim =>
    obtain ⟨hlong, rfl⟩ | ⟨hmax, -, -, -, rfl⟩ := execCfgDelim_next.1 h
    · exact State.kindField_eq_ite_of_failure (k := .configurationError) rfl hlong
    · exact State.kindField_eq_ite_of_success rfl (Nat.not_lt.2 hmax)
  case cfgPix =>
    obtain ⟨hillegal, rfl⟩ | ⟨hd1, hd4, hch2, rfl⟩ := execCfgPix_next.1 h
    · exact State.kindField_eq_ite_of_failure (k := .configurationError) rfl (by omega)
    · exact State.kindField_eq_ite_of_success rfl (by omega)
  case txtEnc =>
    obtain ⟨-, -, -, -, -, rfl⟩ := execTxtEnc_next.1 h
    exact State.kindField_of_status (k := .success) rfl
  case txtDec =>
    obtain ⟨-, -, -, rfl⟩ := execTxtDec_next.1 h
    exact State.kindField_of_status (k := .success) rfl
  case lsbEmb =>
    obtain ⟨hshort, rfl⟩ | ⟨hfits, -, -, -, -, -, rfl⟩ := execLsbEmb_next.1 h
    · exact State.kindField_eq_ite_of_failure (k := .capacityExceeded) rfl hshort
    · exact State.kindField_eq_ite_of_success rfl (Nat.not_lt.2 hfits)
  case lsbExt =>
    rw [← carrierBits_zero]
    exact execLsbExt_kind rfl h
  case pixEmb =>
    obtain ⟨hsize, rfl⟩ | ⟨hw, hsh, hsw, hh, -, -, -, -, -, rfl⟩ := execPixEmb_next.1 h
    · exact State.kindField_eq_ite_of_failure (k := .capacityExceeded) rfl (by omega)
    · exact State.kindField_eq_ite_of_success rfl (by omega)
  case pixExt =>
    rw [← State.imageHeader_eq_row_zero]
    exact execPixExt_kind rfl rfl h
  case illegal =>
    obtain rfl := Host.Outcome.next.inj ((issueCommand_of_no_row hrow s).symm.trans h)
    exact State.kindField_of_status (k := .illegalCommand) rfl

/-! ### A command completes or is refused (60_exceptions.md R193) -/

/-- The command answers a next state, or is refused for a reason of `R`: it does not fault. -/
def CompletesOrRefused (R : Refusal → Prop) (x : Result) : Prop := (∃ t, x = .next t) ∨ ∃ r, x = .refused r ∧ R r

section

variable {R : Refusal → Prop}

theorem CompletesOrRefused.raise (k : Kind) (s : State) : CompletesOrRefused R (raise k s) := .inl ⟨_, rfl⟩

theorem CompletesOrRefused.succeed (warn : Bool) (s : State) : CompletesOrRefused R (succeed warn s) := .inl ⟨_, rfl⟩

/-- A premise adds its own reason, where it can be false. -/
theorem CompletesOrRefused.require {ok : Bool} {r : Refusal} {go : Result} (hr : ok = false → R r)
    (hgo : CompletesOrRefused R go) : CompletesOrRefused R (require ok r go) := by
  cases ok with
  | true => exact hgo
  | false => exact .inr ⟨r, rfl, hr rfl⟩

theorem CompletesOrRefused.ite {c : Prop} [Decidable c] {x y : Result} (hx : CompletesOrRefused R x)
    (hy : CompletesOrRefused R y) : CompletesOrRefused R (if c then x else y) := by
  split
  · exact hx
  · exact hy


theorem samplesFit_aud (car : Space 16) (n : Nat) : samplesFit .aud car n = true :=
  List.all_eq_true.2 fun _ _ => Bool.or_true _

/-- U8 is a reason at the 8-bit width only. -/
theorem reason_of_samplesFit_eq_false {w : SampleWidth} {car : Space 16} {n : Nat}
    (hwide : w = .img → R .sampleTooWide) (h : samplesFit w car n = false) : R .sampleTooWide := by
  cases w with
  | img => exact hwide rfl
  | aud => simp [samplesFit_aud] at h

theorem execCfgPix_completes (ch d : Nat) (s : State) : CompletesOrRefused R (execCfgPix ch d s) :=
  .ite (.raise _ _) (.ite (.raise _ _) (.succeed _ _))

variable (hcap : R .overCapacity) (hun : R .unwrittenElement)
include hcap hun

theorem execCfgDelim_completesOrRefused (hscalar : R .nonScalarText) (s : State) :
    CompletesOrRefused R (execCfgDelim s) :=
  .ite (.raise _ _) <| .require (fun _ => hcap) <| .require (fun _ => hun) <| .require (fun _ => hscalar) <|
    .succeed _ _

theorem execTxtEnc_completesOrRefused (hscalar : R .nonScalarText) (s : State) :
    CompletesOrRefused R (execTxtEnc s) :=
  .require (fun _ => hcap) <| .require (fun _ => hun) <| .require (fun _ => hscalar) <| .require (fun _ => hcap) <|
    .succeed _ _

theorem execTxtDec_completesOrRefused (s : State) : CompletesOrRefused R (execTxtDec s) :=
  .require (fun _ => hcap) <| .require (fun _ => hun) <| .require (fun _ => hcap) <| .succeed _ _

theorem execLsbEmb_completesOrRefused {w : SampleWidth} (hwide : w = .img → R .sampleTooWide) (s : State) :
    CompletesOrRefused R (execLsbEmb w s) :=
  .ite (.raise _ _) <| .require (fun _ => hcap) <| .require (fun _ => hun) <|
    .require (reason_of_samplesFit_eq_false hwide) <| .succeed _ _

theorem extractText_completesOrRefused (m : Nat) (s : State) : CompletesOrRefused R (extractText m s) :=
  .ite (.require (fun _ => hun) <| .require (fun _ => hcap) <| .succeed _ _) (.raise _ _)

theorem execLsbExt_completesOrRefused {w : SampleWidth} (hwide : w = .img → R .sampleTooWide) (s : State) :
    CompletesOrRefused R (execLsbExt w s) :=
  .ite (.raise _ _) <| .require (fun _ => hcap) <| .require (fun _ => hun) <|
    .require (reason_of_samplesFit_eq_false hwide) <| extractText_completesOrRefused hcap hun _ _

theorem execPixEmb_completesOrRefused (hwide : R .sampleTooWide) (s : State) :
    CompletesOrRefused R (execPixEmb s) :=
  .ite (.raise _ _) <| .ite (.raise _ _) <| .require (fun _ => hcap) <| .require (fun _ => hun) <|
    .require (fun _ => hwide) <| .succeed _ _

theorem extractImage_completesOrRefused (sw sh : Nat) (s : State) : CompletesOrRefused R (extractImage sw sh s) :=
  .ite (.require (fun _ => hcap) <| .require (fun _ => hun) <| .succeed _ _) (.raise _ _)

theorem execPixExt_completesOrRefused (hwide : R .sampleTooWide) (s : State) :
    CompletesOrRefused R (execPixExt s) :=
  .ite (.raise _ _) <| .require (fun _ => hcap) <| .require (fun _ => hun) <| .require (fun _ => hwide) <|
    extractImage_completesOrRefused hcap hun _ _ _

end

/-- Settles O41: along each meaning a command raises, succeeds, or meets a premise whose reason is among those named for
it; at the 16-bit width the U8 premise always holds. -/
theorem commandsNeverFault : Obligations.CommandsNeverFault := by
  intro i s
  cases i with
  | cfgDelim => exact execCfgDelim_completesOrRefused (.inl rfl) (.inr (.inl rfl)) (.inr (.inr rfl)) s
  | cfgPix ch d => exact execCfgPix_completes ch d s
  | txtEnc => exact execTxtEnc_completesOrRefused (.inl rfl) (.inr (.inl rfl)) (.inr (.inr rfl)) s
  | txtDec => exact execTxtDec_completesOrRefused (.inl rfl) (.inr rfl) s
  | lsbEmb w =>
    cases w with
    | img => exact execLsbEmb_completesOrRefused (.inl rfl) (.inr (.inl rfl)) (fun _ => .inr (.inr rfl)) s
    | aud => exact execLsbEmb_completesOrRefused (.inl rfl) (.inr rfl) nofun s
  | lsbExt w =>
    cases w with
    | img => exact execLsbExt_completesOrRefused (.inl rfl) (.inr (.inl rfl)) (fun _ => .inr (.inr rfl)) s
    | aud => exact execLsbExt_completesOrRefused (.inl rfl) (.inr rfl) nofun s
  | pixEmb => exact execPixEmb_completesOrRefused (.inl rfl) (.inr (.inl rfl)) (.inr (.inr rfl)) s
  | pixExt => exact execPixExt_completesOrRefused (.inl rfl) (.inr (.inl rfl)) (.inr (.inr rfl)) s

end Sys2Proof.Machine

/-! SUPPORT. What a host action other than a command or a reset cannot write, and which steps change the configuration
(O11, O12). -/

namespace Sys2Proof.Machine

/-- R232: what the host writes directly are operand registers and spaces, so such an action keeps the result and
configuration registers. -/
theorem performHost_keeps_registers {a : HostAction} {s t : State} (hcmd : ∀ c, a ≠ .command c) (hreset : a ≠ .reset)
    (h : performHost a s = .next t) :
    t.status = s.status ∧ t.hdr0 = s.hdr0 ∧ t.hdr1 = s.hdr1 ∧ t.pixcfg = s.pixcfg ∧ t.delim = s.delim ∧
      t.dlen = s.dlen ∧ t.host = s.host := by
  cases a with
  | command word => exact absurd rfl (hcmd word)
  | reset => exact absurd rfl hreset
  | writeReg r v =>
    obtain rfl := Host.Outcome.next.inj h
    simp
  | loadCar _ _ | loadOut _ _ | loadSec _ _ | loadRec _ _ | loadTxt _ _ | loadBit _ _ =>
    obtain ⟨-, rfl⟩ := hostAccess_next_eq_next.1 h
    simp
  | copyOutToCar =>
    obtain rfl := Host.Outcome.next.inj h
    simp
  | readReg r => simp [hostReadReg_next h]
  | readElem sp i => simp [hostReadElem_next h]

/-- Settles O11. -/
theorem hostCannotWriteResultRegisters : Obligations.HostCannotWriteResultRegisters := by
  intro s t a rest hhost hcmd hreset h
  exact performHost_keeps_registers hcmd hreset ((step_of_host hhost).symm.trans h)

/-! ### The configuration (70_reset_and_hazards.md R221) -/

theorem Writes.of_pixcfg_ne {s t : State} {i : Instr} (h : Writes s i t) (hne : t.pixcfg ≠ s.pixcfg) :
    (∃ ch d, i = .cfgPix ch d) ∧ t.succeeded := by
  cases h with
  | cfgPix ch d => exact ⟨⟨ch, d, rfl⟩, State.succeeded_of_success rfl⟩
  | failure | lsbExtFailure | pixExtFailure | cfgDelim | txtEnc | txtDec | lsbEmb | lsbExt | pixEmb | pixExt =>
    exact absurd rfl hne

theorem Writes.of_delimiter_ne {s t : State} {i : Instr} (h : Writes s i t)
    (hne : t.delim ≠ s.delim ∨ t.dlen ≠ s.dlen) : i = .cfgDelim ∧ t.succeeded := by
  cases h with
  | cfgDelim => exact ⟨rfl, State.succeeded_of_success rfl⟩
  | failure | lsbExtFailure | pixExtFailure | cfgPix | txtEnc | txtDec | lsbEmb | lsbExt | pixEmb | pixExt =>
    exact absurd hne (by simp)

theorem issueCommand_writes {c : Word} {s t : State} (h : issueCommand c s = .next t) :
    (∃ i, decode c = .ok i ∧ Writes s i t) ∨ t = { s with status := statusWord .illegalCommand false } := by
  cases hdecode : decode c with
  | ok i =>
    rw [issueCommand_of_decode hdecode] at h
    exact .inl ⟨i, rfl, exec_writes h⟩
  | error e =>
    rw [issueCommand, hdecode] at h
    exact .inr (raise_eq_next.1 h)

/-- A step that is no reset keeps the configuration, or runs a command, which writes only what is its to write. -/
theorem step_keeps_configuration_or_writes {s t : State} (h : step s = .next t)
    (hreset : ∀ rest, s.host ≠ .reset :: rest) :
    (t.pixcfg = s.pixcfg ∧ t.delim = s.delim ∧ t.dlen = s.dlen) ∨
    ∃ c i rest, s.host = .command c :: rest ∧ decode c = .ok i ∧ Writes { s with host := rest } i t := by
  cases hhost : s.host with
  | nil =>
    obtain rfl := Host.Outcome.next.inj ((step_of_idle hhost).symm.trans h)
    exact .inl ⟨rfl, rfl, rfl⟩
  | cons a rest =>
    rw [step_of_host hhost] at h
    by_cases hcmd : ∃ c, a = .command c
    · obtain ⟨c, rfl⟩ := hcmd
      obtain ⟨i, hdecode, hw⟩ | rfl := issueCommand_writes h
      · exact .inr ⟨c, i, rest, rfl, hdecode, hw⟩
      · exact .inl ⟨rfl, rfl, rfl⟩
    · have hne : a ≠ .reset := fun ha => hreset rest (ha ▸ hhost)
      obtain ⟨-, -, -, hpix, hdelim, hdlen, -⟩ := performHost_keeps_registers (not_exists.1 hcmd) hne h
      exact .inl ⟨hpix, hdelim, hdlen⟩

/-- Settles O12: a step that changes the configuration runs a command, and of the commands' writes only those of a
successful `CFG.PIX` or `CFG.DELIM` reach it. -/
theorem configurationChangesOnlyByItsCommands : Obligations.ConfigurationChangesOnlyByItsCommands := by
  intro s t h hreset
  obtain ⟨hpix, hdelim, hdlen⟩ | ⟨c, i, rest, hhost, hdecode, hw⟩ := step_keeps_configuration_or_writes h hreset
  · exact ⟨fun hne => absurd hpix hne, fun hne => absurd hne (by simp [hdelim, hdlen])⟩
  · refine ⟨fun hne => ?pixcfg, fun hne => ?delimiter⟩
    case pixcfg =>
      obtain ⟨⟨ch, d, rfl⟩, hsucc⟩ := hw.of_pixcfg_ne hne
      exact ⟨c, ch, d, rest, hhost, hdecode, hsucc⟩
    case delimiter =>
      obtain ⟨rfl, hsucc⟩ := hw.of_delimiter_ne hne
      exact ⟨c, rest, hhost, hdecode, hsucc⟩

end Sys2Proof.Machine
